-- ==== Sys2Proof/Word.lean ====
section
/-! DEFINITION. The word types of the rank-coder block (00_scope.md R6, R7). Every value is unsigned. -/

namespace Sys2Proof

/-- A byte: a symbol, PENDING, LAST, COUNT, a code length, a rank, one output-stream element (R6: OUT_W, ACC_W, LEN_W). -/
abbrev Byte := BitVec 8

/-- One frequency count, FREQ_W = 32 bits (R6, R23). -/
abbrev Freq := BitVec 32

/-- One command word, CMD_W = 64 bits (R6, R70). -/
abbrev CmdWord := BitVec 64

/-- One word address of the read port, RD_AW = 12 bits (R6, R52). -/
abbrev ReadAddr := BitVec 12

/-- One word of the read port, RD_DW = 32 bits (R6, R52). -/
abbrev ReadWord := BitVec 32

/-- The running code value of the rank walk, CODE_W = 256 bits (R6, R113). -/
abbrev RunningCode := BitVec 256

/-- A stored code value, 255 bits (10_state.md R20, R25: value below 2^255). -/
abbrev CodeValue := BitVec 255

end Sys2Proof
end

