-- ==== Sys2Proof/Config.lean ====
section
/-! DEFINITION. The parameters of 00_scope.md R6 that are values; those that are widths are the types of Word.lean.
R6 leaves none open ("No parameter is left open"), so this file holds no free value. Log 9. -/

namespace Sys2Proof.Config

/-- NSYM: the number of symbols (R6). -/
abbrev nsym : Nat := 256

/-- MAX_LEN: the longest code, in bits, that the bit-packer accepts (R6). -/
def maxLen : Nat := 8

/-- COUNT_MAX: the largest run count (R6). -/
def countMax : Byte := 255

/-- The largest frequency count, 2^32 - 1, which FREQ_INC does not pass (40_freq.md R102). -/
def freqMax : Freq := 0xFFFFFFFF

end Sys2Proof.Config
end

