-- ==== Sys2Proof/Syntax.lean ====
section
/-! DEFINITION. The syntax of the block's command language: the nine commands, the fields of a command word, a row of the
opcode map, and the assembler's statements and pseudo-instructions (30_encoding.md R70 to R77). -/

namespace Sys2Proof

/-- The nine mnemonics of 30_encoding.md R73. -/
inductive Mnemonic where
  | freqClr | freqWr | freqInc | rankBuild | rankPush | rankFlush | rleInit | rlePush | rleFlush
deriving DecidableEq, Repr

/-- The nine commands with their operands (30_encoding.md R73, R75). `b` is the B field, the symbol or byte operand; `v` is the
V field, a 32-bit count. No command has a register or an address operand (R72). -/
inductive Instr where
  | freqClr
  | freqWr (b : Byte) (v : Freq)
  | freqInc (b : Byte)
  | rankBuild
  | rankPush (b : Byte)
  | rankFlush
  | rleInit
  | rlePush (b : Byte)
  | rleFlush
deriving DecidableEq, Repr

/-- The mnemonic of a command (30_encoding.md R73). -/
def Instr.mnemonic : Instr → Mnemonic
  | .freqClr => .freqClr
  | .freqWr _ _ => .freqWr
  | .freqInc _ => .freqInc
  | .rankBuild => .rankBuild
  | .rankPush _ => .rankPush
  | .rankFlush => .rankFlush
  | .rleInit => .rleInit
  | .rlePush _ => .rlePush
  | .rleFlush => .rleFlush

/-- The four fields of a command word (30_encoding.md R71). -/
structure CmdFields where
  op  : Byte
  rsv : BitVec 16
  v   : Freq
  b   : Byte
deriving DecidableEq, Repr

/-- One row of the opcode map: a word selects the row exactly when `(w & mask) = bits` (30_encoding.md R73, its columns "match"
and "mask"). -/
structure OpcodeRow where
  mnemonic : Mnemonic
  bits     : CmdWord
  mask     : CmdWord
deriving DecidableEq, Repr

/-- One assembler statement before its operands are checked: a mnemonic and the integers written after it (30_encoding.md R76). -/
structure AsmStmt where
  mnemonic : Mnemonic
  operands : List Nat
deriving DecidableEq, Repr

/-- The pseudo-instructions of 30_encoding.md R77; `repeated` is the shorthand "<command line> x n". -/
inductive Pseudo where
  | freqCount (buf : List Byte)
  | freqLoad (counts : Vector Freq 256)
  | rankNew (buf : List Byte)
  | rankEncode (chunk : List Byte)
  | rleEncode (chunk : List Byte)
  | repeated (i : Instr) (n : Nat)
deriving DecidableEq, Repr

end Sys2Proof
end

