-- ==== Sys2Proof/WellFormed.lean ====
section
/-! DEFINITION. Which command words and which assembler statements are well formed. A term of `Instr` carries its operand
ranges in its types (B is 8 bits, V is 32 bits, and every value of each is legal: 30_encoding.md R72, 40_freq.md R101), so every
term of `Instr` is well formed; what can be ill formed is a word's fields (R74) and a written statement (R76). -/

namespace Sys2Proof

/-- The nine assigned OP values (30_encoding.md R73). -/
def assignedOps : List Byte := [0x01, 0x02, 0x03, 0x10, 0x11, 0x12, 0x20, 0x21, 0x22]

/-- R74, item 1: OP is an assigned value. -/
def CmdFields.opAssigned (f : CmdFields) : Bool := assignedOps.contains f.op

/-- R74, item 2: RSV is 0. -/
def CmdFields.rsvZero (f : CmdFields) : Bool := f.rsv == 0

/-- R74, item 3: V is 0 in a command other than FREQ_WR (OP 0x02). -/
def CmdFields.vUnusedZero (f : CmdFields) : Bool := f.op == 0x02 || f.v == 0

/-- R74, item 4: B is 0 in FREQ_CLR, RANK_BUILD, RANK_FLUSH, RLE_INIT and RLE_FLUSH. -/
def CmdFields.bUnusedZero (f : CmdFields) : Bool :=
  !([0x01, 0x10, 0x12, 0x20, 0x22] : List Byte).contains f.op || f.b == 0

/-- The fields of a word that is not illegal: none of the four conditions of 30_encoding.md R74 holds. -/
def CmdFields.wellFormed (f : CmdFields) : Bool :=
  f.opAssigned && f.rsvZero && f.vUnusedZero && f.bUnusedZero

/-- How many operands a mnemonic takes in assembler text (30_encoding.md R76). -/
def Mnemonic.arity : Mnemonic → Nat
  | .freqClr | .rankBuild | .rankFlush | .rleInit | .rleFlush => 0
  | .freqInc | .rankPush | .rlePush => 1
  | .freqWr => 2

/-- R76: commands take exactly the operands listed. -/
def AsmStmt.arityOk (a : AsmStmt) : Bool := a.operands.length == a.mnemonic.arity

/-- R76: `b`, the first operand, is an integer 0..255. -/
def AsmStmt.bInRange (a : AsmStmt) : Bool := a.operands.head?.all (· < 256)

/-- R76: `v`, the second operand, is an integer 0..4294967295. -/
def AsmStmt.vInRange (a : AsmStmt) : Bool := a.operands.tail.head?.all (· < 4294967296)

/-- A statement with the right number of operands, each in its range ("An operand out of range is an assembly error, not a
wrapped value", R76). -/
def AsmStmt.wellFormed (a : AsmStmt) : Bool := a.arityOk && a.bInRange && a.vInRange

end Sys2Proof
end

