-- ==== Sys2Proof/Decode.lean ====
section
/-! DEFINITION. The fields of a command word, the decoder (total on every 64-bit word), the encoder, and the opcode map as
masks and patterns (30_encoding.md R70 to R75). A command word is one 64-bit value with no byte order (20_memory.md R53), so the
decoder reads a word, not bytes: log 10. -/

namespace Sys2Proof

/-- The four fields of a word by bit position (30_encoding.md R71). -/
def CmdFields.ofWord (w : CmdWord) : CmdFields where
  op  := w.extractLsb' 56 8
  rsv := w.extractLsb' 40 16
  v   := w.extractLsb' 8 32
  b   := w.extractLsb' 0 8

/-- The word that holds four given fields (30_encoding.md R71). -/
def CmdFields.toWord (f : CmdFields) : CmdWord := f.op ++ f.rsv ++ f.v ++ f.b

/-- The command that four fields stand for, or `none` for `Illegal` (30_encoding.md R75, arm by arm). -/
def decodeFields (f : CmdFields) : Option Instr :=
  if f.rsv ≠ 0 then none
  else match f.op.toNat with
    | 0x01 => if f.v = 0 ∧ f.b = 0 then some .freqClr else none
    | 0x02 => some (.freqWr f.b f.v)
    | 0x03 => if f.v = 0 then some (.freqInc f.b) else none
    | 0x10 => if f.v = 0 ∧ f.b = 0 then some .rankBuild else none
    | 0x11 => if f.v = 0 then some (.rankPush f.b) else none
    | 0x12 => if f.v = 0 ∧ f.b = 0 then some .rankFlush else none
    | 0x20 => if f.v = 0 ∧ f.b = 0 then some .rleInit else none
    | 0x21 => if f.v = 0 then some (.rlePush f.b) else none
    | 0x22 => if f.v = 0 ∧ f.b = 0 then some .rleFlush else none
    | _ => none

/-- The decoder: one of the nine commands with its operands, or `none` for an illegal word (30_encoding.md R75). -/
def decode (w : CmdWord) : Option Instr := decodeFields (CmdFields.ofWord w)

/-- The OP value of a command (30_encoding.md R73). It is what FAULT.OP records when the command faults (60_exceptions.md R172). -/
def opcodeOf : Instr → Byte
  | .freqClr => 0x01
  | .freqWr _ _ => 0x02
  | .freqInc _ => 0x03
  | .rankBuild => 0x10
  | .rankPush _ => 0x11
  | .rankFlush => 0x12
  | .rleInit => 0x20
  | .rlePush _ => 0x21
  | .rleFlush => 0x22

/-- The V field of a command's word: 0 in a command that does not use it (30_encoding.md R73). -/
def vFieldOf : Instr → Freq
  | .freqWr _ v => v
  | .freqClr | .freqInc _ | .rankBuild | .rankPush _ | .rankFlush | .rleInit | .rlePush _ | .rleFlush => 0

/-- The B field of a command's word: 0 in a command that does not use it (30_encoding.md R73). It is what FAULT.B records when the
command faults (60_exceptions.md R172). -/
def bFieldOf : Instr → Byte
  | .freqWr b _ | .freqInc b | .rankPush b | .rlePush b => b
  | .freqClr | .rankBuild | .rankFlush | .rleInit | .rleFlush => 0

/-- The fields of a command's word (30_encoding.md R73: RSV is 0 in every command). -/
def encodeFields (i : Instr) : CmdFields where
  op  := opcodeOf i
  rsv := 0
  v   := vFieldOf i
  b   := bFieldOf i

/-- The word of a command (30_encoding.md R73). -/
def encode (i : Instr) : CmdWord := (encodeFields i).toWord

/-- The opcode map as patterns and masks, row by row (30_encoding.md R73, second table). -/
def opcodeTable : List OpcodeRow :=
  [ ⟨.freqClr,   0x0100000000000000, 0xFFFFFFFFFFFFFFFF⟩,
    ⟨.freqWr,    0x0200000000000000, 0xFFFFFF0000000000⟩,
    ⟨.freqInc,   0x0300000000000000, 0xFFFFFFFFFFFFFF00⟩,
    ⟨.rankBuild, 0x1000000000000000, 0xFFFFFFFFFFFFFFFF⟩,
    ⟨.rankPush,  0x1100000000000000, 0xFFFFFFFFFFFFFF00⟩,
    ⟨.rankFlush, 0x1200000000000000, 0xFFFFFFFFFFFFFFFF⟩,
    ⟨.rleInit,   0x2000000000000000, 0xFFFFFFFFFFFFFFFF⟩,
    ⟨.rlePush,   0x2100000000000000, 0xFFFFFFFFFFFFFF00⟩,
    ⟨.rleFlush,  0x2200000000000000, 0xFFFFFFFFFFFFFFFF⟩ ]

/-- A word selects a row exactly when `(w & mask) = match` (30_encoding.md R73). -/
def OpcodeRow.selects (r : OpcodeRow) (w : CmdWord) : Bool := w &&& r.mask == r.bits

/-- The command word that the opcode table numbers: `nbits` bits of `w`, bit 0 the least significant, every bit above them 0.
Every row has 64 bits (30_encoding.md R70). Log 10. -/
def tableWord (nbits w : Nat) : CmdWord := BitVec.ofNat 64 (w % 2 ^ nbits)

/-- What the decoder reads from an instruction whose bits the opcode table numbers as `w`. -/
def decodeTableWord (nbits w : Nat) : Option Instr := decode (tableWord nbits w)

end Sys2Proof
end

