-- ==== Sys2Proof/Machine/State.lean ====
section
/-! DEFINITION. The state of the block: every element of 10_state.md R20, and the host's side of the two ports. -/

namespace Sys2Proof.Machine

/-- The fault codes of 60_exceptions.md R171. Codes 7..255 are "never recorded" (R171, I14), so the type has none of them. Log 6.
Who raises each: `illegalCommand` any illegal word; `unknownSymbol` and `unsupportedAlphabet` RANK_PUSH; `useAfterFlush` RANK_PUSH,
RANK_FLUSH, RLE_PUSH and RLE_FLUSH; `noInstance` RANK_FLUSH; `freqOverflow` FREQ_INC. -/
inductive FaultCode where
  | none
  | illegalCommand
  | unknownSymbol
  | unsupportedAlphabet
  | useAfterFlush
  | noInstance
  | freqOverflow
deriving DecidableEq, Repr

/-- The sticky FAULT register: CODE = FAULT[7:0], OP = FAULT[15:8], B = FAULT[23:16]; FAULT[31:24] reads as 0 (10_state.md R22). -/
structure FaultReg where
  code : FaultCode
  op   : Byte
  b    : Byte
deriving DecidableEq, Repr

/-- RLIFE, the lifecycle of the rank encoder: 0 NONE, 1 OPEN, 2 CLOSED; 3 is "never held" (10_state.md R24). Log 6. -/
inductive RLife where
  | none
  | opened
  | closed
deriving DecidableEq, Repr

/-- LLIFE, the lifecycle of the RLE encoder: 1 OPEN, 2 CLOSED; 0 and 3 are "never held" (10_state.md R29). Log 6. -/
inductive LLife where
  | opened
  | closed
deriving DecidableEq, Repr

/-- One code-table entry: CODE, LEN and RANK (10_state.md R25). LEN = 0 means "no entry". -/
structure TableEntry where
  code : CodeValue
  len  : Byte
  rank : Byte
deriving DecidableEq, Repr

/-- One transaction of the host: a command word on the command port (20_memory.md R51), a read of the read port (R52), or a reset
(70_reset_and_hazards.md R190). Log 1. -/
inductive HostEvent where
  | command (w : CmdWord)
  | read (a : ReadAddr)
  | reset
deriving DecidableEq, Repr

/-- The FREQ file (10_state.md R23). -/
abbrev FreqFile := Vector Freq 256

/-- The TABLE file (10_state.md R25). -/
abbrev CodeTable := Vector TableEntry 256

/-- The state. The first twelve fields are the whole architectural state (10_state.md R20). `port` and `readLog` are the model's own:
the host's transactions still to come, oldest first (log 1), and the words the read port has returned, oldest first (log 3). -/
structure State where
  fault   : FaultReg
  freq    : FreqFile
  rlife   : RLife
  table   : CodeTable
  wide    : Bool
  pending : Byte
  offset  : BitVec 3
  llife   : LLife
  last    : Byte
  count   : Byte
  outRank : List Byte
  outRle  : List Byte
  port    : List HostEvent
  readLog : List ReadWord
deriving DecidableEq, Repr

/-- The reasons for which a step could stop the model: none. Every fault of the block is a next state with FAULT written
(60_exceptions.md R172) and every refusal of the block a next state with nothing changed (R174). Safe: nothing stops. Log 12. -/
inductive Fault where
deriving DecidableEq, Repr

/-- The reasons for which an instruction could have no meaning. -/
inductive Refusal where
  /-- Raised by an arm of `exec` whose instruction has no meaning yet; safe. No arm raises it: all nine commands have theirs. Log 12. -/
  | notModelled (mnemonic : String)
deriving DecidableEq, Repr

/-- The outcome of one step or one command. -/
abbrev Result := Host.Outcome State Fault Refusal

/-- FAULT at reset: 0 in all fields (10_state.md R22). -/
def FaultReg.clear : FaultReg := ⟨.none, 0, 0⟩

/-- A TABLE entry that stands for no entry: {CODE 0, LEN 0, RANK 0} (10_state.md R25). -/
def TableEntry.absent : TableEntry := ⟨0, 0, 0⟩

/-- FREQ with every count 0 (10_state.md R23; 40_freq.md R100). -/
def FreqFile.zero : FreqFile := Vector.replicate 256 0

/-- TABLE with no entry (10_state.md R25). -/
def CodeTable.absent : CodeTable := Vector.replicate 256 .absent

/-- The block right after reset, each element at its value of 70_reset_and_hazards.md R190. The host's side is empty: no transaction
waits and no read has been answered (logs 1 and 3). -/
def State.reset : State where
  fault   := .clear
  freq    := FreqFile.zero
  rlife   := .none
  table   := CodeTable.absent
  wide    := false
  pending := 0
  offset  := 0
  llife   := .opened
  last    := 0
  count   := 0
  outRank := []
  outRle  := []
  port    := []
  readLog := []

end Sys2Proof.Machine
end

