-- ==== Sys2Proof/Machine/Ops.lean ====
section
/-! DEFINITION. The shared operations over the state: reading and writing the two register files, emitting to a stream, fault entry,
the refusal of a halted block, and reset. -/

namespace Sys2Proof.Machine

/-- `FREQ[s]` of a FREQ file (00_scope.md R8). -/
def FreqFile.at (f : FreqFile) (s : Byte) : Freq := f[s.toNat]'s.isLt

/-- A FREQ file with `FREQ[s] <- v` done (00_scope.md R8). -/
def FreqFile.write (f : FreqFile) (s : Byte) (v : Freq) : FreqFile := f.set s.toNat v s.isLt

/-- `TABLE[s]` of a code table (00_scope.md R8). -/
def CodeTable.at (t : CodeTable) (s : Byte) : TableEntry := t[s.toNat]'s.isLt

/-- A code table with `TABLE[s] <- e` done (00_scope.md R8). -/
def CodeTable.write (t : CodeTable) (s : Byte) (e : TableEntry) : CodeTable := t.set s.toNat e s.isLt

/-- The 256 symbols in ascending order (41_rank_table.md R111). -/
def allSymbols : List Byte := (List.range 256).map (BitVec.ofNat 8)

/-- `Emit(OUT_RANK, v)` (00_scope.md R8). -/
def emitRank (v : Byte) (s : State) : State := { s with outRank := s.outRank ++ [v] }

/-- `for e in es: Emit(OUT_RANK, e)` (42_rank_pack.md R131). -/
def emitRankAll (es : List Byte) (s : State) : State := es.foldl (fun s e => emitRank e s) s

/-- `Emit(OUT_RLE, v)` (00_scope.md R8). -/
def emitRle (v : Byte) (s : State) : State := { s with outRle := s.outRle ++ [v] }

/-- `EmitPair(n, v)`: the run length first, then the value (43_rle.md). -/
def emitPair (n v : Byte) (s : State) : State := emitRle v (emitRle n s)

/-- The block is halted while FAULT.CODE is not 0 (60_exceptions.md R174). -/
def State.halted (s : State) : Bool := s.fault.code != .none

/-- Fault entry: FAULT receives the code and the faulting word's OP and B fields, and nothing else changes (60_exceptions.md R172,
R173). The block gives no way back from a fault but reset (R176). -/
def raiseFault (code : FaultCode) (op b : Byte) (s : State) : Result := .next { s with fault := ⟨code, op, b⟩ }

/-- Fault entry by a command: OP and B are those of the command's own word (60_exceptions.md R172). -/
def raiseFaultOf (code : FaultCode) (i : Instr) (s : State) : Result := raiseFault code (opcodeOf i) (bFieldOf i) s

/-- A halted block refuses every command: no state changes, not even FAULT (60_exceptions.md R174). A block that is not halted runs
the command's effect. The refused command is gone from the port: log 4. -/
def unlessHalted (effect : State → Result) (s : State) : Result := if s.halted then .next s else effect s

/-- Reset: every architectural element takes its reset value, which also ends the halted state (70_reset_and_hazards.md R190). The
host's own side, its transactions to come and the words it has read, is not the block's and stays: log 5. -/
def takeReset (s : State) : State := { State.reset with port := s.port, readLog := s.readLog }

end Sys2Proof.Machine
end

