-- ==== Sys2Proof/Machine/Operands.lean ====
section
/-! DEFINITION. What a command's operands select. The operand forms of the block are two: B, a symbol or byte, and V, a 32-bit count,
both taken from the word as they stand (30_encoding.md R72; `CmdFields.ofWord` takes them). B selects a FREQ count, a TABLE entry, or
is itself the byte fed to the RLE engine. -/

namespace Sys2Proof.Machine

/-- FREQ[B], the count a FREQ command's symbol selects (40_freq.md R101, R102). -/
def State.freqAt (s : State) (b : Byte) : Freq := s.freq.at b

/-- TABLE[B], the code a pushed symbol selects (42_rank_pack.md R131). -/
def State.entryAt (s : State) (b : Byte) : TableEntry := s.table.at b

/-- `c[n-1:0]` as an 8-bit value: the n bits of a code that stand for it (41_rank_table.md R112; 42_rank_pack.md R130: c < 2^8
whenever n <= 8). -/
def codeBits (c : CodeValue) (n : Nat) : Byte := BitVec.ofNat 8 (c.toNat % 2 ^ n)

end Sys2Proof.Machine
end

