-- ==== Sys2Proof/Machine/Flags.lean ====
section
/-! DEFINITION. The block's flag computations: WIDE, its one status flag, and the check that a code is too long for the bit-packer.
The block has no condition codes. -/

namespace Sys2Proof.Machine

/-- `|{ s : FREQ[s] != 0 }|`, the number of symbols with a nonzero count (41_rank_table.md R110, R115). -/
def nonzeroCount (f : FreqFile) : Nat := allSymbols.countP (fun s => f.at s != 0)

/-- WIDE: more than MAX_LEN = 8 symbols have a nonzero count (41_rank_table.md R115). -/
def wideFlag (f : FreqFile) : Bool := decide (Config.maxLen < nonzeroCount f)

/-- `n > 8`: the code is longer than the bit-packer accepts (42_rank_pack.md R131). -/
def TableEntry.tooLong (e : TableEntry) : Bool := decide (Config.maxLen < e.len.toNat)

end Sys2Proof.Machine
end

