-- ==== Sys2Proof/Machine/Freq.lean ====
section
/-! DEFINITION. The frequency staging commands (40_freq.md). None of them touches a stream, TABLE, PENDING, OFFSET, WIDE, RLIFE or the
RLE engine. -/

namespace Sys2Proof.Machine

/-- FREQ_CLR: `for s in 0..255: FREQ[s] <- 0` (40_freq.md R100). -/
def execFreqClr : State → Result :=
  unlessHalted fun s => .next { s with freq := FreqFile.zero }

/-- FREQ_WR: `FREQ[B] <- V` (40_freq.md R101). -/
def execFreqWr (b : Byte) (v : Freq) : State → Result :=
  unlessHalted fun s => .next { s with freq := s.freq.write b v }

/-- FREQ_INC: FREQ_OVERFLOW when the count is 2^32 - 1, else one more (40_freq.md R102). -/
def execFreqInc (b : Byte) : State → Result :=
  unlessHalted fun s =>
    if s.freqAt b = Config.freqMax then raiseFaultOf .freqOverflow (.freqInc b) s
    else .next { s with freq := s.freq.write b (s.freqAt b + 1) }

end Sys2Proof.Machine
end

