-- ==== Sys2Proof/Machine/RankPack.lean ====
section
/-! DEFINITION. The rank bit-packer (42_rank_pack.md): Splice, RANK_PUSH and RANK_FLUSH. -/

namespace Sys2Proof.Machine

/-- `Splice(p, o, c, n)`: the next PENDING, the next OFFSET, and the bytes to emit, zero or one (42_rank_pack.md R130). The rule gives
it for 1 <= n <= 8; outside those lengths no step of a reachable state calls it (log 8). -/
def splice (p : Byte) (o : BitVec 3) (c : CodeValue) (n : Nat) : Byte × BitVec 3 × List Byte :=
  let bits := codeBits c n
  let t := o.toNat + n
  if t < 8 then (p ||| (bits <<< (8 - t)), BitVec.ofNat 3 t, [])
  else
    let r := t - 8
    (bits <<< (8 - r), BitVec.ofNat 3 r, [p ||| (bits >>> r)])

/-- RANK_PUSH's own effect once its checks have passed: splice the code and emit (42_rank_pack.md R131). -/
def pushCode (e : TableEntry) (s : State) : State :=
  let r := splice s.pending s.offset e.code e.len.toNat
  emitRankAll r.2.2 { s with pending := r.1, offset := r.2.1 }

/-- RANK_PUSH: its three checks in order, then the splice (42_rank_pack.md R131). -/
def execRankPush (b : Byte) : State → Result :=
  unlessHalted fun s =>
    match s.rlife with
    | .none => raiseFaultOf .unknownSymbol (.rankPush b) s
    | .closed => raiseFaultOf .useAfterFlush (.rankPush b) s
    | .opened =>
      if (s.entryAt b).tooLong then raiseFaultOf .unsupportedAlphabet (.rankPush b) s
      else .next (pushCode (s.entryAt b) s)

/-- RANK_FLUSH: its two checks in order, then the partial byte, if any, and RLIFE closed; PENDING and OFFSET stay
(42_rank_pack.md R132). -/
def execRankFlush : State → Result :=
  unlessHalted fun s =>
    match s.rlife with
    | .none => raiseFaultOf .noInstance .rankFlush s
    | .closed => raiseFaultOf .useAfterFlush .rankFlush s
    | .opened =>
      let s' := if s.offset = 0 then s else emitRank s.pending s
      .next { s' with rlife := .closed }

end Sys2Proof.Machine
end

