-- ==== Sys2Proof/Machine/RankTable.lean ====
section
/-! DEFINITION. The rank code-table builder (41_rank_table.md): ranking by a stable sort, the rank walk, and RANK_BUILD. -/

namespace Sys2Proof.Machine

/-- The symbols in rank order: the ascending list of symbols, sorted by count descending with a stable sort (41_rank_table.md R111).
Insertion sort that puts a symbol before those of equal count already in place is one such sort: log 14. -/
def sortedSymbols (f : FreqFile) : List Byte :=
  allSymbols.insertionSort (fun s t => f.at t ≤ f.at s)

/-- `rotl_256`, a rotation left by one place within 256 bits (00_scope.md R7). -/
def rotl256 (x : RunningCode) : RunningCode := (x <<< 1) ||| (x >>> 255)

/-- The running values of the walk, the code value and the code length, at its start (41_rank_table.md R113). -/
def walkStart : RunningCode × Nat := (0, 1)

/-- The running values after rank `k` has its entry (41_rank_table.md R113): rotate and set bit 1, one bit longer; after rank 254,
set bit 0 and keep the length. -/
def walkNext (k : Nat) (r : RunningCode × Nat) : RunningCode × Nat :=
  if k ≠ 254 then (rotl256 r.1 ||| 0b10, r.2 + 1) else (r.1 ||| 0b01, r.2)

/-- The entry that rank `k` receives from the running values (41_rank_table.md R113). Bit 255 of the running code is 0 there, so the
stored 255 bits are its value. -/
def walkEntry (k : Nat) (r : RunningCode × Nat) : TableEntry := ⟨r.1.setWidth 255, BitVec.ofNat 8 r.2, BitVec.ofNat 8 k⟩

/-- The walk over the symbols still to come, in rank order, from rank `k` (41_rank_table.md R113). -/
def walkFrom : List Byte → Nat → RunningCode × Nat → CodeTable → CodeTable
  | [], _, _, t => t
  | s :: rest, k, r, t => walkFrom rest (k + 1) (walkNext k r) (t.write s (walkEntry k r))

/-- `RankWalk(FREQ)`: every symbol's entry, assigned in rank order (41_rank_table.md R113). It writes all 256 entries. -/
def rankWalk (f : FreqFile) : CodeTable := walkFrom (sortedSymbols f) 0 walkStart CodeTable.absent

/-- RANK_BUILD: TABLE and WIDE from FREQ, and a fresh encoder instance, in any RLIFE state (41_rank_table.md R110). -/
def execRankBuild : State → Result :=
  unlessHalted fun s =>
    .next { s with table := rankWalk s.freq, wide := wideFlag s.freq, pending := 0, offset := 0, rlife := .opened }

end Sys2Proof.Machine
end

