-- ==== Sys2Proof/Machine/Rle.lean ====
section
/-! DEFINITION. The run-length encoder (43_rle.md): RLE_INIT, RLE_PUSH and RLE_FLUSH. -/

namespace Sys2Proof.Machine

/-- RLE_INIT: a fresh encoder instance, in any LLIFE state (43_rle.md R150). -/
def execRleInit : State → Result :=
  unlessHalted fun s => .next { s with last := 0, count := 0, llife := .opened }

/-- One step of the run-length state machine on byte `b`, its branches in the rule's order (43_rle.md R151). -/
def feedRun (b : Byte) (s : State) : State :=
  if s.count = 0 then { s with last := b, count := 1 }
  else if b = s.last ∧ s.count < Config.countMax then { s with count := s.count + 1 }
  else if b = s.last then { emitPair Config.countMax s.last s with count := 1 }
  else { emitPair s.count s.last s with last := b, count := 1 }

/-- RLE_PUSH: USE_AFTER_FLUSH on a closed stream, else one step of the state machine (43_rle.md R151). -/
def execRlePush (b : Byte) : State → Result :=
  unlessHalted fun s =>
    match s.llife with
    | .closed => raiseFaultOf .useAfterFlush (.rlePush b) s
    | .opened => .next (feedRun b s)

/-- RLE_FLUSH: USE_AFTER_FLUSH on a closed stream, else the last pair, if a run is in progress, and LLIFE closed; LAST and COUNT stay
(43_rle.md R152). -/
def execRleFlush : State → Result :=
  unlessHalted fun s =>
    match s.llife with
    | .closed => raiseFaultOf .useAfterFlush .rleFlush s
    | .opened =>
      let s' := if s.count = 0 then s else emitPair s.count s.last s
      .next { s' with llife := .closed }

end Sys2Proof.Machine
end

