-- ==== Sys2Proof/Machine/Dispatch.lean ====
section
/-! DEFINITION. exec: one arm per command of the opcode map (30_encoding.md R73). -/

namespace Sys2Proof.Machine

def exec (i : Instr) (s : State) : Host.Outcome State Fault Refusal :=
  match i with
  | .freqClr => Sys2Proof.Machine.execFreqClr s
  | .freqWr b v => Sys2Proof.Machine.execFreqWr b v s
  | .freqInc b => Sys2Proof.Machine.execFreqInc b s
  | .rankBuild => Sys2Proof.Machine.execRankBuild s
  | .rankPush b => Sys2Proof.Machine.execRankPush b s
  | .rankFlush => Sys2Proof.Machine.execRankFlush s
  | .rleInit => Sys2Proof.Machine.execRleInit s
  | .rlePush b => Sys2Proof.Machine.execRlePush b s
  | .rleFlush => Sys2Proof.Machine.execRleFlush s

end Sys2Proof.Machine
end

