-- ==== Sys2Proof/Machine/ReadPort.lean ====
section
/-! DEFINITION. The read port: the register map of 10_state.md R33 and the read `MemRead(a, 4)` of 20_memory.md R52. -/

namespace Sys2Proof.Machine

/-- The 8-bit code of a fault (60_exceptions.md R171). -/
def FaultCode.toByte : FaultCode → Byte
  | .none => 0
  | .illegalCommand => 1
  | .unknownSymbol => 2
  | .unsupportedAlphabet => 3
  | .useAfterFlush => 4
  | .noInstance => 5
  | .freqOverflow => 6

/-- The 2-bit code of RLIFE (10_state.md R24). -/
def RLife.toBits : RLife → BitVec 2
  | .none => 0
  | .opened => 1
  | .closed => 2

/-- The 2-bit code of LLIFE (10_state.md R29). -/
def LLife.toBits : LLife → BitVec 2
  | .opened => 1
  | .closed => 2

/-- FAULT at 0x000: CODE 7:0, OP 15:8, B 23:16, the rest 0 (10_state.md R22, R33). -/
def faultWord (s : State) : ReadWord := 0#8 ++ s.fault.b ++ s.fault.op ++ s.fault.code.toByte

/-- RANK_STAT at 0x001: RLIFE 1:0, WIDE 2, OFFSET 6:4, PENDING 15:8, the rest 0 (10_state.md R33). -/
def rankStatWord (s : State) : ReadWord :=
  0#16 ++ s.pending ++ 0#1 ++ s.offset ++ 0#1 ++ BitVec.ofBool s.wide ++ s.rlife.toBits

/-- RLE_STAT at 0x002: LLIFE 1:0, LAST 15:8, COUNT 23:16, the rest 0 (10_state.md R33). -/
def rleStatWord (s : State) : ReadWord := 0#8 ++ s.count ++ s.last ++ 0#6 ++ s.llife.toBits

/-- TABLE_s at 0x200 + s: CODE[7:0] 7:0, LEN 15:8, RANK 23:16, the rest 0 (10_state.md R33). -/
def tableWordOf (e : TableEntry) : ReadWord := 0#8 ++ e.rank ++ e.len ++ e.code.setWidth 8

/-- `MemRead(a, 4)`: the word of 10_state.md R33 at address `a`; an unmapped address reads as 0 (20_memory.md R52, R58). -/
def readPort (a : ReadAddr) (s : State) : ReadWord :=
  if a = 0x000 then faultWord s
  else if a = 0x001 then rankStatWord s
  else if a = 0x002 then rleStatWord s
  else if a.extractLsb' 8 4 = 1 then s.freqAt (a.setWidth 8)
  else if a.extractLsb' 8 4 = 2 then tableWordOf (s.entryAt (a.setWidth 8))
  else 0

end Sys2Proof.Machine
end

