-- ==== Sys2Proof/Machine/Port.lean ====
section
/-! DEFINITION. What each transaction of the host does to the block (20_memory.md R51, R52; 60_exceptions.md R175;
70_reset_and_hazards.md R190). -/

namespace Sys2Proof.Machine

/-- A command word that encodes no command "is accepted too, and faults" (20_memory.md R51): ILLEGAL_COMMAND with the word's OP and B
fields (60_exceptions.md R171, R172), unless the block is halted (R175, item 1 before item 2). -/
def illegalWord (w : CmdWord) : State → Result :=
  unlessHalted (raiseFault .illegalCommand (CmdFields.ofWord w).op (CmdFields.ofWord w).b)

/-- One accepted command word (20_memory.md R51): the command it decodes to, or the illegal word's fault (30_encoding.md R74, R75). -/
def acceptCommand (w : CmdWord) (s : State) : Result :=
  match decode w with
  | some i => exec i s
  | none => illegalWord w s

/-- One read (20_memory.md R52): the host receives the word at address `a`, and no state of the block changes. Log 3. -/
def performRead (a : ReadAddr) (s : State) : State := { s with readLog := s.readLog ++ [readPort a s] }

/-- One transaction of the host. -/
def acceptEvent (e : HostEvent) (s : State) : Result :=
  match e with
  | .command w => acceptCommand w s
  | .read a => .next (performRead a s)
  | .reset => .next (takeReset s)

/-- The state in which command word `w` is the host's next transaction, before all those already waiting. -/
def issueFirst (w : CmdWord) (s : State) : State := { s with port := .command w :: s.port }

end Sys2Proof.Machine
end

