-- ==== Sys2Proof/Machine/Step.lean ====
section
/-! DEFINITION. One step of the machine: the host's next transaction (00_scope.md R2; 20_memory.md R51). -/

namespace Sys2Proof.Machine

/-- The block takes the oldest transaction waiting and executes it completely (20_memory.md R51, R59). With none waiting it is idle and
all state persists (60_exceptions.md R182; log 2). -/
def step (s : State) : Host.Outcome State Fault Refusal :=
  match s.port with
  | [] => .next s
  | e :: rest => acceptEvent e { s with port := rest }

/-- `s` with the command word that the opcode table numbers as `w` placed as the host's next transaction, so that the next step executes
it. The block fetches nothing (20_memory.md R61): its commands come from the host (log 1). -/
def State.withFetchWord (s : State) (nbits w : Nat) : State := issueFirst (tableWord nbits w) s

end Sys2Proof.Machine
end

