-- ==== Sys2Proof/Machine/Assembler.lean ====
section
/-! DEFINITION. The assembler: lines of text to commands (30_encoding.md R76) and the expansion of pseudo-instructions (R77). Text is a
list of characters. Lexical points that R76 does not settle are listed in log 11. -/

namespace Sys2Proof.Machine

/-- The command a well-formed statement stands for; `none` is an assembly error (30_encoding.md R76: "An operand out of range is an
assembly error, not a wrapped value"). -/
def assembleStmt (a : AsmStmt) : Option Instr :=
  if a.wellFormed then
    match a.mnemonic, a.operands with
    | .freqClr, [] => some .freqClr
    | .freqWr, [b, v] => some (.freqWr (BitVec.ofNat 8 b) (BitVec.ofNat 32 v))
    | .freqInc, [b] => some (.freqInc (BitVec.ofNat 8 b))
    | .rankBuild, [] => some .rankBuild
    | .rankPush, [b] => some (.rankPush (BitVec.ofNat 8 b))
    | .rankFlush, [] => some .rankFlush
    | .rleInit, [] => some .rleInit
    | .rlePush, [b] => some (.rlePush (BitVec.ofNat 8 b))
    | .rleFlush, [] => some .rleFlush
    | _, _ => none
  else none

/-- A token of a line: a word of letters, digits and underscores, a character literal, or a comma. -/
abbrev AsmToken := List Char ⊕ Char ⊕ Unit

/-- The word collected so far, if any, put before the tokens that follow it. -/
def closeWord (acc : List Char) (rest : List AsmToken) : List AsmToken :=
  if acc.isEmpty then rest else .inl acc.reverse :: rest

/-- The tokens of a line; `acc` is the word being read, last character first. `;` starts a comment (30_encoding.md R76).
DESIGN CHOICE (log 11): what separates tokens is any `Char.isWhitespace` (space, tab, CR, LF), and a character literal ends the word before
it and is ended by its closing quote, so it may touch its neighbours. -/
def lexFrom : List Char → List Char → Option (List AsmToken)
  | acc, [] => some (closeWord acc [])
  | acc, ';' :: _ => some (closeWord acc [])
  | acc, '\'' :: c :: '\'' :: rest => (lexFrom [] rest).map fun ts => closeWord acc (.inr (.inl c) :: ts)
  | acc, ',' :: rest => (lexFrom [] rest).map fun ts => closeWord acc (.inr (.inr ()) :: ts)
  | acc, c :: rest =>
    if c.isWhitespace then (lexFrom [] rest).map (closeWord acc)
    else if c.isAlphanum || c == '_' then lexFrom (c :: acc) rest
    else none

/-- The value of a decimal digit. -/
def decDigit (c : Char) : Option Nat := if '0' ≤ c ∧ c ≤ '9' then some (c.toNat - '0'.toNat) else none

/-- The value of a hexadecimal digit, in either case. -/
def hexDigit (c : Char) : Option Nat :=
  if '0' ≤ c ∧ c ≤ '9' then some (c.toNat - '0'.toNat)
  else if 'a' ≤ c ∧ c ≤ 'f' then some (c.toNat - 'a'.toNat + 10)
  else if 'A' ≤ c ∧ c ≤ 'F' then some (c.toNat - 'A'.toNat + 10)
  else none

/-- The number a nonempty string of digits writes, most significant first. -/
def digitsValue (base : Nat) (digit : Char → Option Nat) : List Char → Option Nat
  | [] => none
  | cs => cs.foldl (fun n c => do some ((← n) * base + (← digit c))) (some 0)

/-- An integer: decimal, or hexadecimal after `0x` (30_encoding.md R76). -/
def integerValue : List Char → Option Nat
  | '0' :: 'x' :: cs => digitsValue 16 hexDigit cs
  | cs => digitsValue 10 decDigit cs

/-- An operand: an integer, or a character literal "standing for its ASCII byte value" (30_encoding.md R76, G2). -/
def operandValue : AsmToken → Option Nat
  | .inl w => integerValue w
  | .inr (.inl c) => if c.toNat < 128 then some c.toNat else none
  | .inr (.inr ()) => none

/-- The operands after a mnemonic, "separated by a comma" (30_encoding.md R76), and the count of the shorthand `x n` (R77; 1 when the
line has none). -/
def operandsAndCount : List AsmToken → Option (List Nat × Nat)
  | [] => some ([], 1)
  | [.inl ['x'], .inl n] => (integerValue n).map fun k => ([], k)
  | [t] => (operandValue t).map fun v => ([v], 1)
  | [t, .inl ['x'], .inl n] => do some ([← operandValue t], ← integerValue n)
  | t :: .inr (.inr ()) :: t' :: rest => do
    let v ← operandValue t
    let (vs, k) ← operandsAndCount (t' :: rest)
    if vs.isEmpty then none else some (v :: vs, k)
  | _ => none

/-- The nine mnemonics as written (30_encoding.md R73). -/
def mnemonicNames : List (List Char × Mnemonic) :=
  [ ("FREQ_CLR".toList, .freqClr), ("FREQ_WR".toList, .freqWr), ("FREQ_INC".toList, .freqInc),
    ("RANK_BUILD".toList, .rankBuild), ("RANK_PUSH".toList, .rankPush), ("RANK_FLUSH".toList, .rankFlush),
    ("RLE_INIT".toList, .rleInit), ("RLE_PUSH".toList, .rlePush), ("RLE_FLUSH".toList, .rleFlush) ]

/-- Mnemonics "are case-insensitive" (30_encoding.md R76). -/
def mnemonicOf (w : List Char) : Option Mnemonic := mnemonicNames.lookup (w.map Char.toUpper)

/-- One line of assembler text: the commands it stands for (none for a blank or comment line, one for a command, n for a line with
`x n`), or `none` for an assembly error (30_encoding.md R76, R77).
DESIGN CHOICE (log 11): R77 gives the operands of its five named pseudo-instructions no text form, so a line that begins with one of those
names is an error here; they are the terms of `Pseudo`, which `expandPseudo` expands. -/
def assembleLine (line : List Char) : Option (List Instr) := do
  match ← lexFrom [] line with
  | [] => some []
  | .inl w :: rest =>
    let (vs, k) ← operandsAndCount rest
    let i ← assembleStmt ⟨← mnemonicOf w, vs⟩
    some (List.replicate k i)
  | _ => none

/-- The commands a pseudo-instruction stands for, in order (30_encoding.md R77). -/
def expandPseudo : Pseudo → List Instr
  | .freqCount buf => .freqClr :: buf.map .freqInc
  | .freqLoad counts => (List.range 256).map fun s => .freqWr (BitVec.ofNat 8 s) (counts[s]?.getD 0)
  | .rankNew buf => (.freqClr :: buf.map .freqInc) ++ [.rankBuild]
  | .rankEncode chunk => chunk.map .rankPush
  | .rleEncode chunk => chunk.map .rlePush
  | .repeated i n => List.replicate n i

end Sys2Proof.Machine
end

