-- ==== Sys2Proof/Machine/Reference.lean ====
section
/-! DEFINITION. The spec's own reference functions, which no step of the machine calls and in whose terms statements are written: bit
strings (00_scope.md R7), FreqOf (R9), the closed forms of ranking and of the rank walk (41_rank_table.md R111, R113), the pieces of a
run-length stream (43_rle.md R153), and the fault each command word raises (60_exceptions.md R171, R175). -/

namespace Sys2Proof.Machine

/-- `bits_n(v)`: the n-bit string of `v[n-1:0]`, most significant bit first (00_scope.md R7). -/
def bitsMsb : Nat → Nat → List Bool
  | 0, _ => []
  | n + 1, v => v.testBit n :: bitsMsb n v

/-- The bit string a table entry stands for, `bits_LEN(CODE)` (41_rank_table.md R112). -/
def codeString (e : TableEntry) : List Bool := bitsMsb e.len.toNat e.code.toNat

/-- A byte stream read most significant bit first (20_memory.md R54). -/
def streamBits (bs : List Byte) : List Bool := bs.flatMap fun b => bitsMsb 8 b.toNat

/-- `FreqOf(buf)[s]`, the number of places at which `buf` holds `s` (00_scope.md R9). -/
def freqOf (buf : List Byte) (s : Byte) : Nat := buf.count s

/-- `precedes(t, s)` of 41_rank_table.md R111. -/
def precedes (f : FreqFile) (t s : Byte) : Bool := decide (f.at s < f.at t ∨ (f.at t = f.at s ∧ t < s))

/-- `rank(s)` in closed form: the number of symbols that precede it (41_rank_table.md R111). -/
def rankOf (f : FreqFile) (s : Byte) : Nat := allSymbols.countP (precedes f · s)

/-- LEN of rank `k` in closed form (41_rank_table.md R113). -/
def closedLen (k : Nat) : Nat := if k ≤ 254 then k + 1 else 255

/-- CODE of rank `k` in closed form (41_rank_table.md R113). -/
def closedCode (k : Nat) : Nat := if k ≤ 254 then 2 ^ (k + 1) - 2 else 2 ^ 255 - 1

/-- The entry of rank `k` in closed form (41_rank_table.md R113). -/
def closedEntry (k : Nat) : TableEntry := ⟨BitVec.ofNat 255 (closedCode k), BitVec.ofNat 8 (closedLen k), BitVec.ofNat 8 k⟩

/-- The running values of the walk when rank `k` is assigned (41_rank_table.md R113). -/
def walkAt : Nat → RunningCode × Nat
  | 0 => walkStart
  | k + 1 => walkNext k (walkAt k)

/-- The maximal runs of equal bytes, each with its length (43_rle.md R153). -/
def maximalRuns : List Byte → List (Nat × Byte)
  | [] => []
  | x :: xs =>
    match maximalRuns xs with
    | [] => [(1, x)]
    | (n, y) :: rest => if x = y then (n + 1, y) :: rest else (1, x) :: (n, y) :: rest

/-- The pieces of one run: floor(L/255) of length 255, then one of length L mod 255 when that is not zero (43_rle.md R153). -/
def runPieces (run : Nat × Byte) : List (Nat × Byte) :=
  List.replicate (run.1 / 255) (255, run.2) ++ if run.1 % 255 = 0 then [] else [(run.1 % 255, run.2)]

/-- All the pieces of a byte sequence, in order (43_rle.md R153). -/
def rlePieces (x : List Byte) : List (Nat × Byte) := (maximalRuns x).flatMap runPieces

/-- The output bytes of a sequence of pieces: the length, then the value (43_rle.md, EmitPair). -/
def pieceBytes (ps : List (Nat × Byte)) : List Byte := ps.flatMap fun p => [BitVec.ofNat 8 p.1, p.2]

/-- The fault that a command's own checks give, in the order of 60_exceptions.md R175, item 3. -/
def ownFault (i : Instr) (s : State) : FaultCode :=
  match i with
  | .rankPush b =>
    if s.rlife = .none then .unknownSymbol
    else if s.rlife = .closed then .useAfterFlush
    else if 8 < (s.entryAt b).len.toNat then .unsupportedAlphabet
    else .none
  | .rankFlush => if s.rlife = .none then .noInstance else if s.rlife = .closed then .useAfterFlush else .none
  | .rlePush _ | .rleFlush => if s.llife = .closed then .useAfterFlush else .none
  | .freqInc b => if (s.freqAt b).toNat = 2 ^ 32 - 1 then .freqOverflow else .none
  | .freqClr | .freqWr _ _ | .rankBuild | .rleInit => .none

/-- The fault a command word raises on a block that is not halted: an illegal word's first, then the command's own
(60_exceptions.md R175, items 2 and 3). -/
def faultOfWord (w : CmdWord) (s : State) : FaultCode :=
  match decode w with
  | none => .illegalCommand
  | some i => ownFault i s

/-- Whether a command belongs to the RLE engine (30_encoding.md R73). -/
def isRleCommand : Instr → Bool
  | .rleInit | .rlePush _ | .rleFlush => true
  | .freqClr | .freqWr _ _ | .freqInc _ | .rankBuild | .rankPush _ | .rankFlush => false

end Sys2Proof.Machine
end

