-- ==== Sys2Proof/Safety.lean ====
section
/-! DEFINITION. Runs of commands, and what holds between any two commands (10_state.md R34). -/

namespace Sys2Proof.Machine

/-- The commands of a list, executed in order (20_memory.md R51, R59). -/
def runInstrs : List Instr → State → Result
  | [], s => .next s
  | i :: is, s =>
    match exec i s with
    | .next t => runInstrs is t
    | .fault r => .fault r
    | .refused r => .refused r

/-- `n` transactions of the host, in order (20_memory.md R51, R59; 70_reset_and_hazards.md R193). -/
def runSteps : Nat → State → Result
  | 0, s => .next s
  | n + 1, s =>
    match step s with
    | .next t => runSteps n t
    | .fault r => .fault r
    | .refused r => .refused r

/-- A safe run of a list of commands: it ends with no fault recorded (70_reset_and_hazards.md R192, item 6; R193). -/
def SafeRun (is : List Instr) (s t : State) : Prop := runInstrs is s = .next t ∧ t.halted = false

/-- A table as RANK_BUILD leaves one: every entry is the closed form of its own RANK, and no two symbols share a RANK
(10_state.md R25; 41_rank_table.md R113). -/
def CodeTable.Built (t : CodeTable) : Prop :=
  (∀ b, t.at b = closedEntry (t.at b).rank.toNat) ∧ (∀ b c, (t.at b).rank = (t.at c).rank → b = c)

/-- OUT_RLE is a sequence of whole pairs, each with a run length of 1..255 (43_rle.md R151). -/
def wholePairs : List Byte → Bool
  | [] => true
  | [_] => false
  | n :: _ :: rest => n != 0 && wholePairs rest

/-- The low 8 - OFFSET bits of PENDING are 0, so that PENDING = 0 when OFFSET = 0 (10_state.md R34, item 2). -/
abbrev State.pendingClean (s : State) : Prop := s.pending.toNat % 2 ^ (8 - s.offset.toNat) = 0

/-- What holds between any two commands (10_state.md R34). Its items 1 and 5 are carried by the types of `offset`, `rlife` and `llife`,
and the bound of item 4 by the type of `count`. -/
structure State.Inv (s : State) : Prop where
  /-- R34, item 2. -/
  pending_clean : s.pendingClean
  /-- R34, item 3: with no table, the rank engine is as reset leaves it. -/
  no_instance : s.rlife = .none → s.table = CodeTable.absent ∧ s.pending = 0 ∧ s.offset = 0 ∧ s.wide = false
  /-- R25: with a table, every symbol has its entry. -/
  table_built : s.rlife ≠ .none → s.table.Built
  /-- I17: LAST is 0 while COUNT is 0, the value reset and RLE_INIT write. -/
  idle_last : s.count = 0 → s.last = 0
  /-- R22: OP and B are 0 while no fault is recorded. -/
  fault_clear : s.fault.code = .none → s.fault = FaultReg.clear
  /-- R151: every emitted run length is in 1..255. -/
  pairs_whole : wholePairs s.outRle = true

end Sys2Proof.Machine
end

