-- ==== Sys2Proof/Certificates/Slice0/Obligations.lean ====
section
/-! DEFINITION. The statements for the provers, in the order of the spec's rules. In every statement `t = { s with f := t.f }` is the
frame: all of the state but the fields named is unchanged. A field named on the left keeps what the other clauses say of it. -/

open Sys2Proof Sys2Proof.Machine

/-! ### Encoding (30_encoding.md) -/

/-- Decoding the word of a command gives the command back, with every value of every operand (30_encoding.md R73, R75). -/
def Obligations.DecodeEncodeRoundTrip : Prop :=
  ∀ i : Instr, decode (encode i) = some i

/-- A word that decodes is the word of the command it decodes to, so each command has one word and every operand is the field as it
stands (30_encoding.md R72, R75). -/
def Obligations.EncodeDecodeRoundTrip : Prop :=
  ∀ (w : CmdWord) (i : Instr), decode w = some i →
    encode i = w ∧ opcodeOf i = w.extractLsb' 56 8 ∧ vFieldOf i = w.extractLsb' 8 32 ∧ bFieldOf i = w.extractLsb' 0 8

/-- Illegal words (30_encoding.md R74): exactly those with one of its four conditions, the all-zero word among them; on a block that is
not halted each raises ILLEGAL_COMMAND and does nothing else. -/
def Obligations.IllegalWordsFaultAndDoNothingElse : Prop :=
  (∀ w : CmdWord, decode w = none ↔
      ((CmdFields.ofWord w).op ∉ assignedOps ∨
       (CmdFields.ofWord w).rsv ≠ 0 ∨
       ((CmdFields.ofWord w).v ≠ 0 ∧ (CmdFields.ofWord w).op ≠ 0x02) ∨
       ((CmdFields.ofWord w).b ≠ 0 ∧ (CmdFields.ofWord w).op ∈ ([0x01, 0x10, 0x12, 0x20, 0x22] : List Byte)))) ∧
  decode 0 = none ∧
  ∀ (w : CmdWord) (s : State), decode w = none → s.halted = false →
    acceptCommand w s =
      .next { s with fault := ⟨.illegalCommand, (CmdFields.ofWord w).op, (CmdFields.ofWord w).b⟩ }

/-- A word selects a command exactly when `(w & mask) = match` of that command's row, and no two rows select the same word
(30_encoding.md R73, R75). -/
def Obligations.DecoderAgreesWithMatchAndMask : Prop :=
  (∀ (w : CmdWord) (m : Mnemonic),
      (∃ i, decode w = some i ∧ i.mnemonic = m) ↔ (∃ r ∈ opcodeTable, r.mnemonic = m ∧ w &&& r.mask = r.bits)) ∧
  (∀ (w : CmdWord), ∀ r ∈ opcodeTable, ∀ r' ∈ opcodeTable, r.selects w = true → r'.selects w = true → r = r')

/-- Words written out from 95_test_vectors.md and 30_encoding.md R73 decode to the commands they stand for. -/
def Obligations.WrittenWordsDecode : Prop :=
  decode 0x0100000000000000 = some .freqClr ∧
  decode 0x0200000000006461 = some (.freqWr 0x61 100) ∧
  decode 0x020000FFFFFFFF00 = some (.freqWr 0x00 0xFFFFFFFF) ∧
  decode 0x0300000000000062 = some (.freqInc 0x62) ∧
  decode 0x1000000000000000 = some .rankBuild ∧
  decode 0x1100000000000037 = some (.rankPush 0x37) ∧
  decode 0x1200000000000000 = some .rankFlush ∧
  decode 0x2000000000000000 = some .rleInit ∧
  decode 0x2100000000000061 = some (.rlePush 0x61) ∧
  decode 0x2200000000000000 = some .rleFlush ∧
  decode 0x100000000000005A = none ∧ decode 0x2100010000000041 = none ∧ decode 0x1100000000000141 = none

/-- Assembler statements (30_encoding.md R76): a statement assembles to a command exactly when its operands are that command's B and V
as integers in range, and the five mnemonics without operands assemble with none; an operand out of range or a wrong number of operands
is an error. -/
def Obligations.AssemblerRejectsOutOfRangeOperands : Prop :=
  assembleStmt ⟨.freqClr, []⟩ = some .freqClr ∧ assembleStmt ⟨.rankBuild, []⟩ = some .rankBuild ∧
  assembleStmt ⟨.rankFlush, []⟩ = some .rankFlush ∧ assembleStmt ⟨.rleInit, []⟩ = some .rleInit ∧
  assembleStmt ⟨.rleFlush, []⟩ = some .rleFlush ∧
  (∀ (b v : Nat), assembleStmt ⟨.freqWr, [b, v]⟩ =
      if b < 256 ∧ v < 4294967296 then some (.freqWr (BitVec.ofNat 8 b) (BitVec.ofNat 32 v)) else none) ∧
  (∀ b : Nat, assembleStmt ⟨.freqInc, [b]⟩ = if b < 256 then some (.freqInc (BitVec.ofNat 8 b)) else none) ∧
  (∀ b : Nat, assembleStmt ⟨.rankPush, [b]⟩ = if b < 256 then some (.rankPush (BitVec.ofNat 8 b)) else none) ∧
  (∀ b : Nat, assembleStmt ⟨.rlePush, [b]⟩ = if b < 256 then some (.rlePush (BitVec.ofNat 8 b)) else none) ∧
  (∀ (m : Mnemonic) (ops : List Nat), ops.length ≠ m.arity → assembleStmt ⟨m, ops⟩ = none) ∧
  (∀ (a : AsmStmt) (i : Instr), assembleStmt a = some i → i.mnemonic = a.mnemonic)

/-! ### The step, the ports, and reset (00_scope.md R2; 20_memory.md; 70_reset_and_hazards.md) -/

/-- A step executes the command word at the head of the port, legal or not (20_memory.md R51; 30_encoding.md R75): a word that decodes to
`i` gives exactly `exec i`, an illegal word faults, and a halted block refuses the word. That the word is taken from the head of the list
`port` is the model's choice (log 1), and that a refused word leaves it too (log 4). -/
def Obligations.StepRunsTheDecodedCommand : Prop :=
  ∀ (s : State) (w : CmdWord) (rest : List HostEvent), s.port = .command w :: rest →
    step s = acceptCommand w { s with port := rest } ∧
    (∀ i, decode w = some i → step s = exec i { s with port := rest }) ∧
    (decode w = none → s.halted = false →
      step s = .next { s with port := rest, fault := ⟨.illegalCommand, w.extractLsb' 56 8, w.extractLsb' 0 8⟩ }) ∧
    (s.halted = true → step s = .next { s with port := rest })

/-- The placed word runs next: after `withFetchWord` the next step executes that word's command on the state as it was
(log 1: the model's port). -/
def Obligations.PlacedWordRunsNext : Prop :=
  ∀ (s : State) (i : Instr), step (s.withFetchWord 64 (encode i).toNat) = exec i s

/-- Every step answers a next state: nothing the host does stops the block for good (60_exceptions.md R172, R174; log 12). -/
def Obligations.EveryStepAnswersANextState : Prop :=
  ∀ s : State, ∃ t, step s = .next t

/-- A block with no transaction waiting is idle and keeps all state (60_exceptions.md R182; log 2). -/
def Obligations.IdleBlockKeepsAllState : Prop :=
  ∀ s : State, s.port = [] → step s = .next s

/-- Commands put on the port execute one at a time, in order, each completely before the next (20_memory.md R51, R59). The list `port` from
which each step takes the oldest is the model's choice (log 1), and so is that commands refused by a halted block leave it (log 4). -/
def Obligations.PortRunsCommandsInIssueOrder : Prop :=
  ∀ (is : List Instr) (s : State) (rest : List HostEvent),
    runSteps is.length { s with port := is.map (fun i => .command (encode i)) ++ rest } =
      runInstrs is { s with port := rest }

/-- A read (20_memory.md R52) returns the word of the read port in the state after every earlier command, and changes nothing in the
block; the same read again returns the same word; an unmapped address reads as 0. That the read is the head of the list `port` (log 1)
and that the word returned is appended to the list `readLog` (log 3) are the model's choices. -/
def Obligations.ReadHasNoSideEffect : Prop :=
  ∀ (s : State) (a : ReadAddr) (rest : List HostEvent), s.port = .read a :: rest →
    step s = .next { s with port := rest, readLog := s.readLog ++ [readPort a s] } ∧
    (∀ t, step s = .next t → ∀ a', readPort a' t = readPort a' s) ∧
    ((2 < a.toNat ∧ a.toNat < 0x100) ∨ 0x300 ≤ a.toNat → readPort a s = 0)

/-- The register map of the read port (10_state.md R33): every field of every register at its bits, every other bit 0, every unmapped
address 0; and what each register reads after reset. -/
def Obligations.ReadPortRegisterMap : Prop :=
  ∀ s : State,
    ((readPort 0x000 s).extractLsb' 0 8 =
        (match s.fault.code with
          | .none => 0 | .illegalCommand => 1 | .unknownSymbol => 2 | .unsupportedAlphabet => 3
          | .useAfterFlush => 4 | .noInstance => 5 | .freqOverflow => 6) ∧
      (readPort 0x000 s).extractLsb' 8 8 = s.fault.op ∧
      (readPort 0x000 s).extractLsb' 16 8 = s.fault.b ∧ (readPort 0x000 s).extractLsb' 24 8 = 0) ∧
    ((readPort 0x001 s).extractLsb' 0 2 = (match s.rlife with | .none => 0 | .opened => 1 | .closed => 2) ∧
      (readPort 0x001 s)[2] = s.wide ∧ (readPort 0x001 s)[3] = false ∧
      (readPort 0x001 s).extractLsb' 4 3 = s.offset ∧ (readPort 0x001 s)[7] = false ∧
      (readPort 0x001 s).extractLsb' 8 8 = s.pending ∧ (readPort 0x001 s).extractLsb' 16 16 = 0) ∧
    ((readPort 0x002 s).extractLsb' 0 2 = (match s.llife with | .opened => 1 | .closed => 2) ∧
      (readPort 0x002 s).extractLsb' 2 6 = 0 ∧
      (readPort 0x002 s).extractLsb' 8 8 = s.last ∧ (readPort 0x002 s).extractLsb' 16 8 = s.count ∧
      (readPort 0x002 s).extractLsb' 24 8 = 0) ∧
    (∀ b : Byte, readPort (0x1#4 ++ b) s = s.freqAt b) ∧
    (∀ b : Byte, (readPort (0x2#4 ++ b) s).extractLsb' 0 8 = (s.entryAt b).code.setWidth 8 ∧
      (readPort (0x2#4 ++ b) s).extractLsb' 8 8 = (s.entryAt b).len ∧
      (readPort (0x2#4 ++ b) s).extractLsb' 16 8 = (s.entryAt b).rank ∧ (readPort (0x2#4 ++ b) s).extractLsb' 24 8 = 0) ∧
    (∀ a : ReadAddr, (2 < a.toNat ∧ a.toNat < 0x100) ∨ 0x300 ≤ a.toNat → readPort a s = 0) ∧
    (∀ a : ReadAddr, readPort a State.reset = if a = 0x002 then 1 else 0)

/-- Reset (70_reset_and_hazards.md R190) gives every element its reset value, ends the halted state, and leaves both streams empty. -/
def Obligations.ResetSetsEveryElement : Prop :=
  ∀ (s : State) (rest : List HostEvent), s.port = .reset :: rest →
    ∃ t, step s = .next t ∧ t.halted = false ∧
      t.fault.code = .none ∧ t.fault.op = 0 ∧ t.fault.b = 0 ∧ (∀ b, t.freqAt b = 0) ∧ t.rlife = .none ∧
      (∀ b, (t.entryAt b).code = 0 ∧ (t.entryAt b).len = 0 ∧ (t.entryAt b).rank = 0) ∧ t.pending = 0 ∧ t.offset = 0 ∧
      t.wide = false ∧ t.llife = .opened ∧ t.last = 0 ∧ t.count = 0 ∧ t.outRank = [] ∧ t.outRle = []

/-- Each unit after reset (70_reset_and_hazards.md R191): the RLE engine takes a byte at once; RANK_PUSH and RANK_FLUSH fault until a
RANK_BUILD completes, whatever other commands run before; a RANK_BUILD straight after reset builds the all-tie table. -/
def Obligations.UnitsAreReadyAfterReset : Prop :=
  ∀ s : State,
    (∀ b, exec (.rlePush b) (takeReset s) = .next { takeReset s with last := b, count := 1 }) ∧
    (∀ (is : List Instr) (t : State), .rankBuild ∉ is → SafeRun is (takeReset s) t →
      (∀ b, exec (.rankPush b) t = .next { t with fault := ⟨.unknownSymbol, 0x11, b⟩ }) ∧
      exec .rankFlush t = .next { t with fault := ⟨.noInstance, 0x12, 0⟩ }) ∧
    (∃ t, exec .rankBuild (takeReset s) = .next t ∧ ∀ b, t.entryAt b = closedEntry b.toNat)

/-! ### Frequency staging (40_freq.md) -/

/-- FREQ_CLR (40_freq.md R100): its word; every count becomes 0 and nothing else changes, TABLE and RLIFE whatever they are; a second
one changes nothing more; and the rule's example. -/
def Obligations.FreqClrClearsEveryCount : Prop :=
  encodeFields .freqClr = ⟨0x01, 0, 0, 0⟩ ∧
  ∀ s : State, s.halted = false →
    (∃ t, exec .freqClr s = .next t ∧ (∀ b, t.freqAt b = 0) ∧ t = { s with freq := t.freq } ∧ exec .freqClr t = .next t) ∧
    (∃ t, runInstrs [.freqWr 0x61 5, .freqClr] s = .next t ∧ readPort 0x161 t = 0)

/-- FREQ_WR (40_freq.md R101): its word; the count of B becomes V, whatever V, every other count and everything else stays; a count
loaded as 2^32 - 1 makes a later FREQ_INC of the same symbol fault; and the rule's example. -/
def Obligations.FreqWrLoadsOneCount : Prop :=
  encode (.freqWr 0x61 100) = 0x0200000000006461 ∧
  ∀ (b : Byte) (v : Freq), encodeFields (.freqWr b v) = ⟨0x02, 0, v, b⟩ ∧
    ∀ s : State, s.halted = false →
      ∃ t, exec (.freqWr b v) s = .next t ∧ t.freqAt b = v ∧ (∀ c, c ≠ b → t.freqAt c = s.freqAt c) ∧
        t = { s with freq := t.freq } ∧ exec (.freqWr b v) t = .next t ∧
        (v = 0xFFFFFFFF → exec (.freqInc b) t = .next { t with fault := ⟨.freqOverflow, 0x03, b⟩ })

/-- FREQ_INC (40_freq.md R102): its word; below 2^32 - 1 the count of B goes up by one and everything else stays; at 2^32 - 1 it raises
FREQ_OVERFLOW and FREQ is unchanged; and the rule's example. -/
def Obligations.FreqIncCountsOrOverflows : Prop :=
  (∀ b : Byte, encodeFields (.freqInc b) = ⟨0x03, 0, 0, b⟩) ∧
  (∀ (b : Byte) (s : State), s.halted = false → (s.freqAt b).toNat < 2 ^ 32 - 1 →
    ∃ t, exec (.freqInc b) s = .next t ∧ (t.freqAt b).toNat = (s.freqAt b).toNat + 1 ∧
      (∀ c, c ≠ b → t.freqAt c = s.freqAt c) ∧ t = { s with freq := t.freq }) ∧
  (∀ (b : Byte) (s : State), s.halted = false → (s.freqAt b).toNat = 2 ^ 32 - 1 →
    exec (.freqInc b) s = .next { s with fault := ⟨.freqOverflow, 0x03, b⟩ }) ∧
  (∃ t, runInstrs [.freqInc 0x62, .freqInc 0x62] State.reset = .next t ∧ (t.freqAt 0x62).toNat = 2)

/-- No count passes 2^32 - 1 (40_freq.md R102, corner cases): from any count, repeated FREQ_INC of one symbol adds one each time up to
2^32 - 1 and faults at the next. -/
def Obligations.FreqIncRepeatedStopsAtTheMaximum : Prop :=
  ∀ (b : Byte) (s : State) (n : Nat), s.halted = false →
    ((s.freqAt b).toNat + n ≤ 2 ^ 32 - 1 → ∃ t, runInstrs (List.replicate n (.freqInc b)) s = .next t ∧ t.halted = false ∧
      (t.freqAt b).toNat = (s.freqAt b).toNat + n) ∧
    (2 ^ 32 - 1 < (s.freqAt b).toNat + n → ∃ t, runInstrs (List.replicate n (.freqInc b)) s = .next t ∧
      t.fault = ⟨.freqOverflow, 0x03, b⟩ ∧ (t.freqAt b).toNat = 2 ^ 32 - 1)

/-- Counting (40_freq.md R103): FREQ_COUNT of a buffer in which no symbol occurs 2^32 times or more leaves FREQ = FreqOf(buf), whose sum
is the buffer's length, raises no fault, and does not depend on the order of the buffer. -/
def Obligations.FreqCountComputesFreqOf : Prop :=
  ∀ (buf : List Byte) (s : State), s.halted = false → (∀ b, freqOf buf b < 2 ^ 32) →
    ∃ t, runInstrs (expandPseudo (.freqCount buf)) s = .next t ∧ (∀ b, (t.freqAt b).toNat = freqOf buf b) ∧
      (allSymbols.map fun b => (t.freqAt b).toNat).sum = buf.length ∧ t = { s with freq := t.freq } ∧ t.halted = false ∧
      ∀ buf', buf'.Perm buf → runInstrs (expandPseudo (.freqCount buf')) s = .next t

/-- FREQ_LOAD (30_encoding.md R77) loads a whole frequency table and does nothing else. -/
def Obligations.FreqLoadLoadsTheWholeTable : Prop :=
  ∀ (counts : FreqFile) (s : State), s.halted = false →
    runInstrs (expandPseudo (.freqLoad counts)) s = .next { s with freq := counts }

/-! ### The rank code-table builder (41_rank_table.md) -/

/-- RANK_BUILD (41_rank_table.md R110): its word; in any RLIFE state it replaces TABLE by the walk over FREQ, sets WIDE, empties PENDING,
opens the stream, and changes nothing else, so it emits nothing; with no nonzero count rank equals symbol value; and the rule's example. -/
def Obligations.RankBuildCreatesAFreshEncoder : Prop :=
  encodeFields .rankBuild = ⟨0x10, 0, 0, 0⟩ ∧
  ∀ s : State, s.halted = false →
    ∃ t, exec .rankBuild s = .next t ∧
      (∀ b, t.entryAt b = closedEntry (rankOf s.freq b)) ∧
      (t.wide = true ↔ 8 < (allSymbols.filter fun b => s.freqAt b ≠ 0).length) ∧
      t.pending = 0 ∧ t.offset = 0 ∧ t.rlife = .opened ∧
      t = { s with table := t.table, wide := t.wide, pending := t.pending, offset := t.offset, rlife := t.rlife } ∧
      ((∀ b, s.freqAt b = 0) → ∀ b, t.entryAt b = closedEntry b.toNat) ∧
      ((∀ b, s.freqAt b = if b = 0x61 ∨ b = 0x62 then 100 else 0) →
        t.entryAt 0x61 = ⟨0, 1, 0⟩ ∧ t.entryAt 0x62 = ⟨2, 2, 1⟩ ∧ t.wide = false)

/-- Ranking (41_rank_table.md R111): the symbols sorted are all of them, by count descending with equal counts in ascending symbol order;
a symbol's position is the closed form `rank`; `rank` is a bijection onto 0..255; nonzero counts rank before zero counts. -/
def Obligations.RankingIsTheStableDescendingSort : Prop :=
  ∀ f : FreqFile,
    (sortedSymbols f).Perm allSymbols ∧
    (sortedSymbols f).Pairwise (fun a b => f.at b < f.at a ∨ (f.at a = f.at b ∧ a < b)) ∧
    (∀ b, (sortedSymbols f)[rankOf f b]? = some b) ∧
    (∀ b, rankOf f b < 256) ∧ (∀ k, k < 256 → ∃ b, rankOf f b = k ∧ ∀ c, rankOf f c = k → c = b) ∧
    (∀ a b, f.at a ≠ 0 → f.at b = 0 → rankOf f a < rankOf f b)

/-- The rank walk (41_rank_table.md R113): every symbol's entry is the closed form of its rank; no running code value reaches 2^255
before its assignment, so no rotation wraps; the two lowest ranks share LEN 255 and differ only in bit 0; every LEN is in 1..255. -/
def Obligations.RankWalkHasItsClosedForm : Prop :=
  ∀ f : FreqFile,
    (∀ b, (rankWalk f).at b = closedEntry (rankOf f b)) ∧
    (∀ k, k < 256 → (walkAt k).1.toNat < 2 ^ 255 ∧ (walkAt k).1.toNat = closedCode k ∧ (walkAt k).2 = closedLen k) ∧
    (∀ b c, rankOf f b = 254 → rankOf f c = 255 →
      ((rankWalk f).at b).len = 255 ∧ ((rankWalk f).at c).len = 255 ∧
      ((rankWalk f).at b).code ^^^ ((rankWalk f).at c).code = 1) ∧
    (∀ b, 1 ≤ ((rankWalk f).at b).len.toNat)

/-- The code table is a complete prefix code (41_rank_table.md R114): its strings are 1^k 0 and 1^255, none is a prefix of another, the
Kraft sum is exactly 1, a concatenation of them parses back uniquely, and the ones short enough for the bit-packer are ranks 0..7. -/
def Obligations.CodeTableIsACompletePrefixCode : Prop :=
  ∀ f : FreqFile,
    (∀ b, codeString ((rankWalk f).at b) =
      if rankOf f b ≤ 254 then List.replicate (rankOf f b) true ++ [false] else List.replicate 255 true) ∧
    (∀ b c, b ≠ c → ¬ (codeString ((rankWalk f).at b) <+: codeString ((rankWalk f).at c))) ∧
    (allSymbols.map fun b => 2 ^ (255 - ((rankWalk f).at b).len.toNat)).sum = 2 ^ 255 ∧
    (∀ xs ys : List Byte, (xs.flatMap fun b => codeString ((rankWalk f).at b)) = (ys.flatMap fun b => codeString ((rankWalk f).at b)) →
      xs = ys) ∧
    (∀ b, ((rankWalk f).at b).tooLong = false ↔ rankOf f b ≤ 7)

/-- WIDE (41_rank_table.md R115) is set exactly when more than 8 symbols have a nonzero count, which is exactly when some symbol with a
nonzero count has a code longer than 8 bits; the nonzero counts take ranks 0..NZ-1. -/
def Obligations.WideTellsOfALongPresentCode : Prop :=
  ∀ s t : State, s.halted = false → exec .rankBuild s = .next t →
    (t.wide = true ↔ 8 < nonzeroCount s.freq) ∧
    (t.wide = true ↔ ∃ b, s.freqAt b ≠ 0 ∧ 8 < (t.entryAt b).len.toNat) ∧
    (∀ b, s.freqAt b ≠ 0 ↔ rankOf s.freq b < nonzeroCount s.freq) ∧ t.fault = s.fault

/-- TABLE is a snapshot (41_rank_table.md R116): no command but RANK_BUILD changes it, and two RANK_BUILDs on equal FREQ contents give
equal TABLE contents. -/
def Obligations.TableIsASnapshotOfFreq : Prop :=
  (∀ (i : Instr) (s t : State), i ≠ .rankBuild → exec i s = .next t → t.table = s.table) ∧
  (∀ s s' t t' : State, s.halted = false → s'.halted = false → s.freq = s'.freq →
    exec .rankBuild s = .next t → exec .rankBuild s' = .next t' → t.table = t'.table)

/-- The worked cases of 41_rank_table.md R117. -/
def Obligations.WorkedCodeTables : Prop :=
  ∀ s t : State, s.halted = false → exec .rankBuild s = .next t →
    ((∀ b, s.freqAt b = 0) → (∀ b, (t.entryAt b).rank = b) ∧
      t.entryAt 0 = ⟨0x00, 1, 0⟩ ∧ t.entryAt 1 = ⟨0x02, 2, 1⟩ ∧ t.entryAt 7 = ⟨0xFE, 8, 7⟩ ∧ t.entryAt 8 = ⟨510, 9, 8⟩ ∧
      t.entryAt 254 = ⟨BitVec.ofNat 255 (2 ^ 255 - 2), 255, 254⟩ ∧ t.entryAt 255 = ⟨BitVec.ofNat 255 (2 ^ 255 - 1), 255, 255⟩) ∧
    ((∀ b, s.freqAt b = if b = 0x61 ∨ b = 0x62 then 100 else 0) →
      (t.entryAt 0x61).rank = 0 ∧ (t.entryAt 0x62).rank = 1 ∧
      (∀ b : Byte, b ≤ 0x60 → (t.entryAt b).rank.toNat = b.toNat + 2) ∧ (∀ b : Byte, 0x63 ≤ b → (t.entryAt b).rank = b)) ∧
    ((∀ b, s.freqAt b = if b = 0x62 then 3 else if b = 0x61 then 1 else 0) →
      t.entryAt 0x62 = ⟨0x00, 1, 0⟩ ∧ t.entryAt 0x61 = ⟨0x02, 2, 1⟩ ∧ t.entryAt 0x00 = ⟨0x06, 3, 2⟩)

/-! ### The rank bit-packer (42_rank_pack.md) -/

/-- Splice (42_rank_pack.md R130; 20_memory.md R54): for a length 1..8 the bits emitted and the valid bits of the new PENDING are the
valid bits of the old PENDING followed by the code's string; at most one byte is emitted; the unused low bits stay 0. -/
def Obligations.SpliceAppendsTheCodeString : Prop :=
  ∀ (p : Byte) (o : BitVec 3) (c : CodeValue) (n : Nat), 1 ≤ n → n ≤ 8 → p.toNat % 2 ^ (8 - o.toNat) = 0 →
    streamBits (splice p o c n).2.2 ++ (bitsMsb 8 (splice p o c n).1.toNat).take (splice p o c n).2.1.toNat =
      (bitsMsb 8 p.toNat).take o.toNat ++ bitsMsb n c.toNat ∧
    (splice p o c n).1.toNat % 2 ^ (8 - (splice p o c n).2.1.toNat) = 0 ∧
    (splice p o c n).2.1.toNat = (o.toNat + n) % 8 ∧
    (splice p o c n).2.2.length = (o.toNat + n) / 8

/-- RANK_PUSH (42_rank_pack.md R131): its word; UNKNOWN_SYMBOL with no table, USE_AFTER_FLUSH on a closed stream, UNSUPPORTED_ALPHABET for
a code longer than 8 bits, in that order and with nothing else changed; else the code is spliced and the bytes emitted; WIDE and the rest
stay; and the rule's example. -/
def Obligations.RankPushSplicesOrFaults : Prop :=
  (∀ b : Byte, encodeFields (.rankPush b) = ⟨0x11, 0, 0, b⟩) ∧
  ∀ (b : Byte) (s : State), s.halted = false →
    (s.rlife = .none → exec (.rankPush b) s = .next { s with fault := ⟨.unknownSymbol, 0x11, b⟩ }) ∧
    (s.rlife = .closed → exec (.rankPush b) s = .next { s with fault := ⟨.useAfterFlush, 0x11, b⟩ }) ∧
    (s.rlife = .opened → 8 < (s.entryAt b).len.toNat →
      exec (.rankPush b) s = .next { s with fault := ⟨.unsupportedAlphabet, 0x11, b⟩ }) ∧
    (s.rlife = .opened → 1 ≤ (s.entryAt b).len.toNat → (s.entryAt b).len.toNat ≤ 8 →
      exec (.rankPush b) s = .next { s with
        pending := (splice s.pending s.offset (s.entryAt b).code (s.entryAt b).len.toNat).1
        offset := (splice s.pending s.offset (s.entryAt b).code (s.entryAt b).len.toNat).2.1
        outRank := s.outRank ++ (splice s.pending s.offset (s.entryAt b).code (s.entryAt b).len.toNat).2.2 }) ∧
    (s.rlife = .opened → (s.entryAt b).code = 2 → (s.entryAt b).len = 2 → s.pending = 0x08 → s.offset = 6 →
      exec (.rankPush b) s = .next { s with pending := 0, offset := 0, outRank := s.outRank ++ [0x0A] })

/-- RANK_FLUSH (42_rank_pack.md R132): its word; NO_INSTANCE with no table, USE_AFTER_FLUSH on a closed stream and so on a second flush,
with nothing else changed; else PENDING is emitted when OFFSET > 0, the stream closes, and PENDING and OFFSET stay; and the rule's
example. -/
def Obligations.RankFlushDrainsAndCloses : Prop :=
  encodeFields .rankFlush = ⟨0x12, 0, 0, 0⟩ ∧
  ∀ s : State, s.halted = false →
    (s.rlife = .none → exec .rankFlush s = .next { s with fault := ⟨.noInstance, 0x12, 0⟩ }) ∧
    (s.rlife = .closed → exec .rankFlush s = .next { s with fault := ⟨.useAfterFlush, 0x12, 0⟩ }) ∧
    (s.rlife = .opened →
      ∃ t, exec .rankFlush s = .next t ∧
        t = { s with rlife := .closed, outRank := s.outRank ++ if 0 < s.offset.toNat then [s.pending] else [] } ∧
        exec .rankFlush t = .next { t with fault := ⟨.useAfterFlush, 0x12, 0⟩ }) ∧
    (s.rlife = .opened → s.pending = 0xA0 → s.offset = 4 →
      exec .rankFlush s = .next { s with rlife := .closed, outRank := s.outRank ++ [0xA0] })

/-- How many bytes are emitted (42_rank_pack.md R133): a push one exactly when OFFSET + LEN >= 8, a flush one exactly when OFFSET > 0;
over a stream of pushes of total length L, L/8 by the pushes and one more by the flush when L is no multiple of 8; between commands OFFSET
is the number of bits pushed since RANK_BUILD, mod 8. -/
def Obligations.RankEmissionCount : Prop :=
  (∀ (s t : State) (b : Byte), s.halted = false → exec (.rankPush b) s = .next t → t.halted = false →
    t.outRank.length = s.outRank.length + if 8 ≤ s.offset.toNat + (s.entryAt b).len.toNat then 1 else 0) ∧
  (∀ (s t : State), s.halted = false → exec .rankFlush s = .next t → t.halted = false →
    t.outRank.length = s.outRank.length + if 0 < s.offset.toNat then 1 else 0) ∧
  (∀ (syms : List Byte) (s : State), s.halted = false → (∀ b ∈ syms, ((rankWalk s.freq).at b).len.toNat ≤ 8) →
    ∃ t u, SafeRun (.rankBuild :: syms.map .rankPush) s t ∧ exec .rankFlush t = .next u ∧ u.halted = false ∧
      t.offset.toNat = (syms.map fun b => ((rankWalk s.freq).at b).len.toNat).sum % 8 ∧
      t.outRank.length = s.outRank.length + (syms.map fun b => ((rankWalk s.freq).at b).len.toNat).sum / 8 ∧
      u.outRank.length = t.outRank.length +
        if (syms.map fun b => ((rankWalk s.freq).at b).len.toNat).sum % 8 = 0 then 0 else 1)

/-- Chunks cannot be observed (42_rank_pack.md R134): encoding the chunks of a sequence one after another is encoding the sequence, for any
split, and an empty chunk changes nothing. -/
def Obligations.ChunkSplitIsInvisible : Prop :=
  ∀ (chunks : List (List Byte)) (s : State),
    runInstrs (chunks.flatMap fun c => expandPseudo (.rankEncode c)) s = runInstrs (expandPseudo (.rankEncode chunks.flatten)) s ∧
    runInstrs (chunks.flatMap fun c => expandPseudo (.rleEncode c)) s = runInstrs (expandPseudo (.rleEncode chunks.flatten)) s ∧
    runInstrs (expandPseudo (.rankEncode [])) s = .next s ∧ runInstrs (expandPseudo (.rleEncode [])) s = .next s

/-- The rank stream (42_rank_pack.md R135): from any block that is not halted, RANK_BUILD, the pushes of symbols whose codes have at most 8
bits, and RANK_FLUSH run without a fault, and the bytes they add to OUT_RANK, read most significant bit first, are the concatenation S of
the pushed symbols' code strings followed by (8 - |S| mod 8) mod 8 zero bits. -/
def Obligations.RankStreamIsThePaddedConcatenation : Prop :=
  ∀ (syms : List Byte) (s : State), s.halted = false → (∀ b ∈ syms, ((rankWalk s.freq).at b).len.toNat ≤ 8) →
    ∃ t out, SafeRun (.rankBuild :: syms.map .rankPush ++ [.rankFlush]) s t ∧ t.outRank = s.outRank ++ out ∧
      streamBits out = (syms.flatMap fun b => codeString ((rankWalk s.freq).at b)) ++
        List.replicate ((8 - (syms.flatMap fun b => codeString ((rankWalk s.freq).at b)).length % 8) % 8) false

/-! ### The run-length encoder (43_rle.md) -/

/-- RLE_INIT (43_rle.md R150): its word; in any LLIFE state it makes a fresh idle encoder, discarding a run in progress, and changes
nothing else; a second one changes nothing more; and the rule's example. -/
def Obligations.RleInitCreatesAFreshEncoder : Prop :=
  encodeFields .rleInit = ⟨0x20, 0, 0, 0⟩ ∧
  (∀ s : State, s.halted = false →
    ∃ t, exec .rleInit s = .next t ∧ t = { s with last := 0, count := 0, llife := .opened } ∧ exec .rleInit t = .next t) ∧
  (∀ s : State, s.halted = false → s.llife = .opened →
    ∃ t, runInstrs [.rlePush 0x78, .rleFlush, .rleInit] s = .next t ∧ readPort 0x002 t = 0x00000001)

/-- RLE_PUSH (43_rle.md R151): its word; USE_AFTER_FLUSH on a closed stream with nothing else changed; else exactly one of the four branches
of the state machine, each with its output; and the rule's example. -/
def Obligations.RlePushStepsTheRunMachine : Prop :=
  (∀ b : Byte, encodeFields (.rlePush b) = ⟨0x21, 0, 0, b⟩) ∧
  (∀ (b : Byte) (s : State), s.halted = false →
    (s.llife = .closed → exec (.rlePush b) s = .next { s with fault := ⟨.useAfterFlush, 0x21, b⟩ }) ∧
    (s.llife = .opened → s.count = 0 → exec (.rlePush b) s = .next { s with last := b, count := 1 }) ∧
    (s.llife = .opened → s.count ≠ 0 → b = s.last → s.count.toNat < 255 →
      ∃ t, exec (.rlePush b) s = .next t ∧ t.count.toNat = s.count.toNat + 1 ∧ t = { s with count := t.count }) ∧
    (s.llife = .opened → b = s.last → s.count = 255 →
      exec (.rlePush b) s = .next { s with count := 1, outRle := s.outRle ++ [255, s.last] }) ∧
    (s.llife = .opened → s.count ≠ 0 → b ≠ s.last →
      exec (.rlePush b) s = .next { s with last := b, count := 1, outRle := s.outRle ++ [s.count, s.last] })) ∧
  (∃ t, runInstrs [.rlePush 0x61, .rlePush 0x61, .rlePush 0x61, .rlePush 0x62] State.reset = .next t ∧
    t.outRle = [0x03, 0x61] ∧ t.last = 0x62 ∧ t.count = 1)

/-- RLE_FLUSH (43_rle.md R152): its word; USE_AFTER_FLUSH on a closed stream and so on a second flush, with nothing else changed; else the
last pair is emitted when a run is in progress, the stream closes, and LAST and COUNT stay; and the rule's example. -/
def Obligations.RleFlushEmitsTheLastRun : Prop :=
  encodeFields .rleFlush = ⟨0x22, 0, 0, 0⟩ ∧
  (∀ s : State, s.halted = false →
    (s.llife = .closed → exec .rleFlush s = .next { s with fault := ⟨.useAfterFlush, 0x22, 0⟩ }) ∧
    (s.llife = .opened →
      ∃ t, exec .rleFlush s = .next t ∧
        t = { s with llife := .closed, outRle := s.outRle ++ if 0 < s.count.toNat then [s.count, s.last] else [] } ∧
        exec .rleFlush t = .next { t with fault := ⟨.useAfterFlush, 0x22, 0⟩ })) ∧
  (∃ t u, runInstrs (List.replicate 500 (.rlePush 0x41)) State.reset = .next t ∧ exec .rleFlush t = .next u ∧
    u.outRle = t.outRle ++ [0xF5, 0x41])

/-- The RLE stream (43_rle.md R153): from an open idle engine, or after RLE_INIT, the pushes of any bytes and RLE_FLUSH run without a fault
and add to OUT_RLE exactly the pairs of the pieces of its maximal runs; all but the last pair come from the pushes; the output has two bytes
a piece. -/
def Obligations.RleStreamIsTheRunPieces : Prop :=
  ∀ (x : List Byte) (s : State), s.halted = false →
    (s.llife = .opened → s.count = 0 →
      ∃ t u, SafeRun (x.map .rlePush) s t ∧ exec .rleFlush t = .next u ∧ u.halted = false ∧
        t.outRle = s.outRle ++ pieceBytes (rlePieces x).dropLast ∧ u.outRle = s.outRle ++ pieceBytes (rlePieces x) ∧
        u.outRle.length = s.outRle.length + 2 * (rlePieces x).length) ∧
    (∃ u, SafeRun (.rleInit :: x.map .rlePush ++ [.rleFlush]) s u ∧ u.outRle = s.outRle ++ pieceBytes (rlePieces x))

/-- What a piece is (43_rle.md R153): the pieces spell the byte sequence back, each has a length in 1..255, and two neighbours have the same
value only when the first has length 255. -/
def Obligations.RlePiecesSpellTheInput : Prop :=
  ∀ x : List Byte,
    ((rlePieces x).flatMap fun p => List.replicate p.1 p.2) = x ∧
    (∀ p ∈ rlePieces x, 1 ≤ p.1 ∧ p.1 ≤ 255) ∧
    (rlePieces x).IsChain (fun p q => p.2 = q.2 → p.1 = 255)

/-! ### Faults and the halted state (60_exceptions.md) -/

/-- Fault entry, precision and priority (60_exceptions.md R171, R172, R173, R175): a halted block refuses the word; else the word records the
first fault that applies, with its code and the word's OP and B fields and no other change, the next read of FAULT shows it, and every later
command is refused; where none applies FAULT keeps its value. -/
def Obligations.FirstApplicableFaultIsRecordedPrecisely : Prop :=
  ∀ (w : CmdWord) (s : State), ∃ t, acceptCommand w s = .next t ∧
    (s.halted = true → t = s) ∧
    (s.halted = false → faultOfWord w s ≠ .none →
      t = { s with fault := ⟨faultOfWord w s, w.extractLsb' 56 8, w.extractLsb' 0 8⟩ } ∧
      readPort 0x000 t = 0#8 ++ w.extractLsb' 0 8 ++ w.extractLsb' 56 8 ++ (faultOfWord w s).toByte ∧
      ∀ w', acceptCommand w' t = .next t) ∧
    (s.halted = false → faultOfWord w s = .none → t.fault = s.fault)

/-- The halted state (60_exceptions.md R174): every command word is refused, with no change at all and nothing emitted; reads go on; reset
leaves it, and nothing else does. That a word read is appended to the list `readLog` is the model's choice (log 3). -/
def Obligations.HaltedBlockRefusesUntilReset : Prop :=
  ∀ s : State, s.halted = true →
    (∀ w, acceptCommand w s = .next s) ∧ (∀ i, exec i s = .next s) ∧
    (∀ a, acceptEvent (.read a) s = .next { s with readLog := s.readLog ++ [readPort a s] }) ∧
    (∃ t, acceptEvent .reset s = .next t ∧ t.halted = false) ∧
    (∀ e t, acceptEvent e s = .next t → t.halted = false → e = .reset)

/-- A fault is kept through any sequence of commands and reads: the host's transactions without a reset leave every architectural element of
a halted block as it is (60_exceptions.md R174, R176). That each transaction, a refused word too, leaves the list `port` is the model's
choice (logs 1 and 4), and so is the list `readLog` (log 3). -/
def Obligations.FirstFaultSurvivesAnyRun : Prop :=
  ∀ (n : Nat) (s t : State), s.halted = true → .reset ∉ s.port → runSteps n s = .next t →
    t = { s with port := s.port.drop n, readLog := t.readLog }

/-! ### Whole-machine rules (10_state.md, 20_memory.md) -/

/-- The invariant holds after reset (10_state.md R34). -/
def Obligations.ResetMeetsTheInvariant : Prop :=
  State.reset.Inv

/-- Every step keeps the invariant (10_state.md R34, R25, R22; 43_rle.md R151; I17). -/
def Obligations.StepKeepsTheInvariant : Prop :=
  ∀ s t : State, s.Inv → step s = .next t → t.Inv

/-- RLIFE is NONE exactly while no RANK_BUILD has completed, and COUNT is 0 exactly before the first RLE_PUSH since RLE_INIT or reset
(10_state.md R34, items 3 and 4). -/
def Obligations.LifecyclesTellWhatHasRun : Prop :=
  ∀ (is : List Instr) (s t : State), s.halted = false → SafeRun is s t →
    (s.rlife = .none → (t.rlife = .none ↔ .rankBuild ∉ is)) ∧
    (s.rlife ≠ .none → t.rlife ≠ .none) ∧
    (s.count = 0 → .rleInit ∉ is → (t.count = 0 ↔ ∀ b, .rlePush b ∉ is))

/-- The output streams are append-only: no command and no read removes or changes a byte already emitted (10_state.md R32). -/
def Obligations.StreamsOnlyGrow : Prop :=
  ∀ s t : State, step s = .next t → s.port.head? ≠ some .reset → s.outRank <+: t.outRank ∧ s.outRle <+: t.outRle

/-- The units share no state but FAULT (10_state.md R20; 20_memory.md R55): an RLE command leaves FREQ and the rank engine alone, every other
command leaves the RLE engine alone, only RANK_PUSH and RANK_FLUSH touch OUT_RANK, only RLE_PUSH and RLE_FLUSH touch OUT_RLE, and no command
touches the host's side. -/
def Obligations.UnitsShareNoStateButFault : Prop :=
  ∀ (i : Instr) (s t : State), exec i s = .next t →
    (isRleCommand i = true → t = { s with fault := t.fault, llife := t.llife, last := t.last, count := t.count, outRle := t.outRle }) ∧
    (isRleCommand i = false →
      t = { s with
        fault := t.fault, freq := t.freq, rlife := t.rlife, table := t.table, wide := t.wide
        pending := t.pending, offset := t.offset, outRank := t.outRank }) ∧
    ((∀ b, i ≠ .rankPush b) → i ≠ .rankFlush → t.outRank = s.outRank) ∧
    ((∀ b, i ≠ .rlePush b) → i ≠ .rleFlush → t.outRle = s.outRle)

/-- Interleaving cannot be observed (20_memory.md R55): in a run without a fault, the RLE engine ends as it would under the RLE commands
alone, and FREQ and the rank engine as they would under the other commands alone. -/
def Obligations.InterleavingDoesNotChangeEitherStream : Prop :=
  ∀ (is : List Instr) (s t : State), s.halted = false → SafeRun is s t →
    (∃ u, SafeRun (is.filter isRleCommand) s u ∧
      u.llife = t.llife ∧ u.last = t.last ∧ u.count = t.count ∧ u.outRle = t.outRle) ∧
    (∃ v, SafeRun (is.filter fun i => !isRleCommand i) s v ∧
      v.freq = t.freq ∧ v.rlife = t.rlife ∧ v.table = t.table ∧ v.wide = t.wide ∧ v.pending = t.pending ∧ v.offset = t.offset ∧
      v.outRank = t.outRank)

/-- Nothing is hidden (10_state.md R35): two blocks that meet the invariant, give the same word at every read-port address and have the same
streams are the same in every architectural element, the code values of TABLE included. -/
def Obligations.ReadPortAndStreamsShowAllState : Prop :=
  ∀ s t : State, s.Inv → t.Inv → (∀ a, readPort a s = readPort a t) → s.outRank = t.outRank → s.outRle = t.outRle →
    t = { s with port := t.port, readLog := t.readLog }

/-- Reset leaves the host's own side as it is: the transactions still to come and the words already read, two lists of the model's own,
which 70_reset_and_hazards.md R190 does not name (the model's choice: logs 1, 3 and 5). -/
def Obligations.ResetKeepsTheHostSide : Prop :=
  ∀ (s : State) (rest : List HostEvent), s.port = .reset :: rest →
    ∃ t, step s = .next t ∧ t.port = rest ∧ t.readLog = s.readLog
end

