-- ==== Sys2Proof/Laws/Decode.lean ====
section
/-! SUPPORT. Taking a word apart and putting it together (30_encoding.md R71). -/

namespace Sys2Proof

theorem CmdFields.ofWord_toWord (f : CmdFields) : CmdFields.ofWord f.toWord = f := by
  obtain ⟨op, rsv, v, b⟩ := f
  simp only [CmdFields.ofWord, CmdFields.toWord, CmdFields.mk.injEq]
  refine ⟨?_, ?_, ?_, ?_⟩ <;> (ext i hi; simp [BitVec.getElem_extractLsb']; grind)

theorem CmdFields.toWord_ofWord (w : CmdWord) : (CmdFields.ofWord w).toWord = w := by
  ext i hi
  simp [CmdFields.ofWord, CmdFields.toWord]
  grind

/-- The fields of an encoded command are those the opcode map gives it (30_encoding.md R73). -/
theorem ofWord_encode (i : Instr) : CmdFields.ofWord (encode i) = encodeFields i :=
  CmdFields.ofWord_toWord _

end Sys2Proof
end

