-- ==== Sys2Proof/Laws/State.lean ====
section
/-! SUPPORT. One lemma per field per shared update of the state, each true by rfl, so that no later proof unfolds an update. -/

namespace Sys2Proof.Machine

@[simp] theorem emitRank_fault (v : Byte) (s : State) : (emitRank v s).fault = s.fault := rfl
@[simp] theorem emitRank_freq (v : Byte) (s : State) : (emitRank v s).freq = s.freq := rfl
@[simp] theorem emitRank_rlife (v : Byte) (s : State) : (emitRank v s).rlife = s.rlife := rfl
@[simp] theorem emitRank_table (v : Byte) (s : State) : (emitRank v s).table = s.table := rfl
@[simp] theorem emitRank_wide (v : Byte) (s : State) : (emitRank v s).wide = s.wide := rfl
@[simp] theorem emitRank_pending (v : Byte) (s : State) : (emitRank v s).pending = s.pending := rfl
@[simp] theorem emitRank_offset (v : Byte) (s : State) : (emitRank v s).offset = s.offset := rfl
@[simp] theorem emitRank_llife (v : Byte) (s : State) : (emitRank v s).llife = s.llife := rfl
@[simp] theorem emitRank_last (v : Byte) (s : State) : (emitRank v s).last = s.last := rfl
@[simp] theorem emitRank_count (v : Byte) (s : State) : (emitRank v s).count = s.count := rfl
@[simp] theorem emitRank_outRank (v : Byte) (s : State) : (emitRank v s).outRank = s.outRank ++ [v] := rfl
@[simp] theorem emitRank_outRle (v : Byte) (s : State) : (emitRank v s).outRle = s.outRle := rfl
@[simp] theorem emitRank_port (v : Byte) (s : State) : (emitRank v s).port = s.port := rfl
@[simp] theorem emitRank_readLog (v : Byte) (s : State) : (emitRank v s).readLog = s.readLog := rfl

@[simp] theorem emitRle_fault (v : Byte) (s : State) : (emitRle v s).fault = s.fault := rfl
@[simp] theorem emitRle_freq (v : Byte) (s : State) : (emitRle v s).freq = s.freq := rfl
@[simp] theorem emitRle_rlife (v : Byte) (s : State) : (emitRle v s).rlife = s.rlife := rfl
@[simp] theorem emitRle_table (v : Byte) (s : State) : (emitRle v s).table = s.table := rfl
@[simp] theorem emitRle_wide (v : Byte) (s : State) : (emitRle v s).wide = s.wide := rfl
@[simp] theorem emitRle_pending (v : Byte) (s : State) : (emitRle v s).pending = s.pending := rfl
@[simp] theorem emitRle_offset (v : Byte) (s : State) : (emitRle v s).offset = s.offset := rfl
@[simp] theorem emitRle_llife (v : Byte) (s : State) : (emitRle v s).llife = s.llife := rfl
@[simp] theorem emitRle_last (v : Byte) (s : State) : (emitRle v s).last = s.last := rfl
@[simp] theorem emitRle_count (v : Byte) (s : State) : (emitRle v s).count = s.count := rfl
@[simp] theorem emitRle_outRank (v : Byte) (s : State) : (emitRle v s).outRank = s.outRank := rfl
@[simp] theorem emitRle_outRle (v : Byte) (s : State) : (emitRle v s).outRle = s.outRle ++ [v] := rfl
@[simp] theorem emitRle_port (v : Byte) (s : State) : (emitRle v s).port = s.port := rfl
@[simp] theorem emitRle_readLog (v : Byte) (s : State) : (emitRle v s).readLog = s.readLog := rfl

@[simp] theorem emitPair_fault (n v : Byte) (s : State) : (emitPair n v s).fault = s.fault := rfl
@[simp] theorem emitPair_freq (n v : Byte) (s : State) : (emitPair n v s).freq = s.freq := rfl
@[simp] theorem emitPair_rlife (n v : Byte) (s : State) : (emitPair n v s).rlife = s.rlife := rfl
@[simp] theorem emitPair_table (n v : Byte) (s : State) : (emitPair n v s).table = s.table := rfl
@[simp] theorem emitPair_wide (n v : Byte) (s : State) : (emitPair n v s).wide = s.wide := rfl
@[simp] theorem emitPair_pending (n v : Byte) (s : State) : (emitPair n v s).pending = s.pending := rfl
@[simp] theorem emitPair_offset (n v : Byte) (s : State) : (emitPair n v s).offset = s.offset := rfl
@[simp] theorem emitPair_llife (n v : Byte) (s : State) : (emitPair n v s).llife = s.llife := rfl
@[simp] theorem emitPair_last (n v : Byte) (s : State) : (emitPair n v s).last = s.last := rfl
@[simp] theorem emitPair_count (n v : Byte) (s : State) : (emitPair n v s).count = s.count := rfl
@[simp] theorem emitPair_outRank (n v : Byte) (s : State) : (emitPair n v s).outRank = s.outRank := rfl
@[simp] theorem emitPair_outRle (n v : Byte) (s : State) : (emitPair n v s).outRle = s.outRle ++ [n] ++ [v] := rfl
@[simp] theorem emitPair_port (n v : Byte) (s : State) : (emitPair n v s).port = s.port := rfl
@[simp] theorem emitPair_readLog (n v : Byte) (s : State) : (emitPair n v s).readLog = s.readLog := rfl

@[simp] theorem performRead_fault (a : ReadAddr) (s : State) : (performRead a s).fault = s.fault := rfl
@[simp] theorem performRead_freq (a : ReadAddr) (s : State) : (performRead a s).freq = s.freq := rfl
@[simp] theorem performRead_rlife (a : ReadAddr) (s : State) : (performRead a s).rlife = s.rlife := rfl
@[simp] theorem performRead_table (a : ReadAddr) (s : State) : (performRead a s).table = s.table := rfl
@[simp] theorem performRead_wide (a : ReadAddr) (s : State) : (performRead a s).wide = s.wide := rfl
@[simp] theorem performRead_pending (a : ReadAddr) (s : State) : (performRead a s).pending = s.pending := rfl
@[simp] theorem performRead_offset (a : ReadAddr) (s : State) : (performRead a s).offset = s.offset := rfl
@[simp] theorem performRead_llife (a : ReadAddr) (s : State) : (performRead a s).llife = s.llife := rfl
@[simp] theorem performRead_last (a : ReadAddr) (s : State) : (performRead a s).last = s.last := rfl
@[simp] theorem performRead_count (a : ReadAddr) (s : State) : (performRead a s).count = s.count := rfl
@[simp] theorem performRead_outRank (a : ReadAddr) (s : State) : (performRead a s).outRank = s.outRank := rfl
@[simp] theorem performRead_outRle (a : ReadAddr) (s : State) : (performRead a s).outRle = s.outRle := rfl
@[simp] theorem performRead_port (a : ReadAddr) (s : State) : (performRead a s).port = s.port := rfl
@[simp] theorem performRead_readLog (a : ReadAddr) (s : State) : (performRead a s).readLog = s.readLog ++ [readPort a s] := rfl

@[simp] theorem issueFirst_fault (w : CmdWord) (s : State) : (issueFirst w s).fault = s.fault := rfl
@[simp] theorem issueFirst_freq (w : CmdWord) (s : State) : (issueFirst w s).freq = s.freq := rfl
@[simp] theorem issueFirst_rlife (w : CmdWord) (s : State) : (issueFirst w s).rlife = s.rlife := rfl
@[simp] theorem issueFirst_table (w : CmdWord) (s : State) : (issueFirst w s).table = s.table := rfl
@[simp] theorem issueFirst_wide (w : CmdWord) (s : State) : (issueFirst w s).wide = s.wide := rfl
@[simp] theorem issueFirst_pending (w : CmdWord) (s : State) : (issueFirst w s).pending = s.pending := rfl
@[simp] theorem issueFirst_offset (w : CmdWord) (s : State) : (issueFirst w s).offset = s.offset := rfl
@[simp] theorem issueFirst_llife (w : CmdWord) (s : State) : (issueFirst w s).llife = s.llife := rfl
@[simp] theorem issueFirst_last (w : CmdWord) (s : State) : (issueFirst w s).last = s.last := rfl
@[simp] theorem issueFirst_count (w : CmdWord) (s : State) : (issueFirst w s).count = s.count := rfl
@[simp] theorem issueFirst_outRank (w : CmdWord) (s : State) : (issueFirst w s).outRank = s.outRank := rfl
@[simp] theorem issueFirst_outRle (w : CmdWord) (s : State) : (issueFirst w s).outRle = s.outRle := rfl
@[simp] theorem issueFirst_port (w : CmdWord) (s : State) : (issueFirst w s).port = .command w :: s.port := rfl
@[simp] theorem issueFirst_readLog (w : CmdWord) (s : State) : (issueFirst w s).readLog = s.readLog := rfl

@[simp] theorem takeReset_fault (s : State) : (takeReset s).fault = FaultReg.clear := rfl
@[simp] theorem takeReset_freq (s : State) : (takeReset s).freq = FreqFile.zero := rfl
@[simp] theorem takeReset_rlife (s : State) : (takeReset s).rlife = .none := rfl
@[simp] theorem takeReset_table (s : State) : (takeReset s).table = CodeTable.absent := rfl
@[simp] theorem takeReset_wide (s : State) : (takeReset s).wide = false := rfl
@[simp] theorem takeReset_pending (s : State) : (takeReset s).pending = 0 := rfl
@[simp] theorem takeReset_offset (s : State) : (takeReset s).offset = 0 := rfl
@[simp] theorem takeReset_llife (s : State) : (takeReset s).llife = .opened := rfl
@[simp] theorem takeReset_last (s : State) : (takeReset s).last = 0 := rfl
@[simp] theorem takeReset_count (s : State) : (takeReset s).count = 0 := rfl
@[simp] theorem takeReset_outRank (s : State) : (takeReset s).outRank = [] := rfl
@[simp] theorem takeReset_outRle (s : State) : (takeReset s).outRle = [] := rfl
@[simp] theorem takeReset_port (s : State) : (takeReset s).port = s.port := rfl
@[simp] theorem takeReset_readLog (s : State) : (takeReset s).readLog = s.readLog := rfl

end Sys2Proof.Machine
end

