-- ==== Sys2Proof/Laws/Ops.lean ====
section
/-! SUPPORT. What each shared operation can do, said once: the register files, the list of symbols, emission, fault entry and the
refusal of a halted block. -/

namespace Sys2Proof.Machine

theorem FreqFile.at_write (f : FreqFile) (s r : Byte) (v : Freq) :
    (f.write s v).at r = if r = s then v else f.at r := by
  by_cases h : r = s
  · subst h; simp [FreqFile.at, FreqFile.write]
  · have : s.toNat ≠ r.toNat := fun e => h (BitVec.eq_of_toNat_eq e.symm)
    simp [FreqFile.at, FreqFile.write, h, this]

theorem CodeTable.at_write (t : CodeTable) (s r : Byte) (e : TableEntry) :
    (t.write s e).at r = if r = s then e else t.at r := by
  by_cases h : r = s
  · subst h; simp [CodeTable.at, CodeTable.write]
  · have : s.toNat ≠ r.toNat := fun e => h (BitVec.eq_of_toNat_eq e.symm)
    simp [CodeTable.at, CodeTable.write, h, this]

theorem FreqFile.at_zero (s : Byte) : FreqFile.zero.at s = 0 := by
  simp [FreqFile.at, FreqFile.zero]

theorem CodeTable.at_absent (s : Byte) : CodeTable.absent.at s = .absent := by
  simp [CodeTable.at, CodeTable.absent]

/-- Two FREQ files with the same count for every symbol are equal. -/
theorem FreqFile.ext_at {f g : FreqFile} (h : ∀ s, f.at s = g.at s) : f = g := by
  apply Vector.ext
  intro i hi
  have := h (BitVec.ofNat 8 i)
  simpa [FreqFile.at, Nat.mod_eq_of_lt hi] using this

/-- Two code tables with the same entry for every symbol are equal. -/
theorem CodeTable.ext_at {t u : CodeTable} (h : ∀ s, t.at s = u.at s) : t = u := by
  apply Vector.ext
  intro i hi
  have := h (BitVec.ofNat 8 i)
  simpa [CodeTable.at, Nat.mod_eq_of_lt hi] using this

theorem mem_allSymbols (s : Byte) : s ∈ allSymbols :=
  List.mem_map.mpr ⟨s.toNat, List.mem_range.mpr s.isLt, by simp⟩

theorem length_allSymbols : allSymbols.length = 256 := by simp [allSymbols]

/-- The symbols are listed in ascending order (41_rank_table.md R111). -/
theorem pairwise_allSymbols : allSymbols.Pairwise (· < ·) := by
  refine List.pairwise_map.mpr (List.Pairwise.imp_of_mem ?_ List.pairwise_lt_range)
  intro a b ha hb hab
  simp only [List.mem_range] at ha hb
  simpa [BitVec.lt_def, Nat.mod_eq_of_lt ha, Nat.mod_eq_of_lt hb] using hab

theorem nodup_allSymbols : allSymbols.Nodup :=
  pairwise_allSymbols.imp fun h e => by subst e; exact absurd h (BitVec.lt_irrefl _)

theorem emitRankAll_eq (es : List Byte) (s : State) :
    emitRankAll es s = { s with outRank := s.outRank ++ es } := by
  induction es generalizing s with
  | nil => simp [emitRankAll]
  | cons e es ih =>
    have : emitRankAll (e :: es) s = emitRankAll es (emitRank e s) := rfl
    rw [this, ih]; simp [emitRank]

theorem halted_eq_false_iff (s : State) : s.halted = false ↔ s.fault.code = .none := by
  simp [State.halted]

/-- A halted block refuses (60_exceptions.md R174). -/
theorem unlessHalted_halted {effect : State → Result} {s : State} (h : s.halted = true) :
    unlessHalted effect s = .next s := by
  simp [unlessHalted, h]

/-- A block that is not halted runs the command's effect. -/
theorem unlessHalted_running {effect : State → Result} {s : State} (h : s.halted = false) :
    unlessHalted effect s = effect s := by
  simp [unlessHalted, h]

/-- Fault entry writes FAULT and nothing else (60_exceptions.md R172, R173). -/
theorem raiseFaultOf_eq (code : FaultCode) (i : Instr) (s : State) :
    raiseFaultOf code i s = .next { s with fault := ⟨code, opcodeOf i, bFieldOf i⟩ } := rfl

end Sys2Proof.Machine
end

