-- ==== Sys2Proof/Laws/Exec.lean ====
section
/-! SUPPORT. What `exec` can do, said once for all nine commands: a halted block refuses, a command whose own check fails records that
fault, and every other command has one effect. Proofs about `exec` cite `exec_eq` instead of unfolding the meanings. -/

namespace Sys2Proof.Machine

/-- The state a command leaves when the block is not halted and none of the command's own checks fails. -/
def effectOf (i : Instr) (s : State) : State :=
  match i with
  | .freqClr => { s with freq := FreqFile.zero }
  | .freqWr b v => { s with freq := s.freq.write b v }
  | .freqInc b => { s with freq := s.freq.write b (s.freqAt b + 1) }
  | .rankBuild =>
    { s with table := rankWalk s.freq, wide := wideFlag s.freq, pending := 0, offset := 0, rlife := .opened }
  | .rankPush b =>
    { s with
      pending := (splice s.pending s.offset (s.entryAt b).code (s.entryAt b).len.toNat).1
      offset := (splice s.pending s.offset (s.entryAt b).code (s.entryAt b).len.toNat).2.1
      outRank := s.outRank ++ (splice s.pending s.offset (s.entryAt b).code (s.entryAt b).len.toNat).2.2 }
  | .rankFlush => { s with rlife := .closed, outRank := s.outRank ++ if s.offset = 0 then [] else [s.pending] }
  | .rleInit => { s with last := 0, count := 0, llife := .opened }
  | .rlePush b => feedRun b s
  | .rleFlush => { s with llife := .closed, outRle := s.outRle ++ if s.count = 0 then [] else [s.count, s.last] }

/-- The state a command leaves, in every case. -/
def afterCommand (i : Instr) (s : State) : State :=
  if s.halted then s
  else if ownFault i s = .none then effectOf i s
  else { s with fault := ⟨ownFault i s, opcodeOf i, bFieldOf i⟩ }

theorem afterCommand_halted {i : Instr} {s : State} (h : s.halted = true) : afterCommand i s = s := by
  simp [afterCommand, h]

theorem afterCommand_runs {i : Instr} {s : State} (h : s.halted = false) (hf : ownFault i s = .none) :
    afterCommand i s = effectOf i s := by
  simp [afterCommand, h, hf]

theorem afterCommand_faults {i : Instr} {s : State} (h : s.halted = false) (hf : ownFault i s ≠ .none) :
    afterCommand i s = { s with fault := ⟨ownFault i s, opcodeOf i, bFieldOf i⟩ } := by
  simp [afterCommand, h, hf]

theorem pushCode_eq (e : TableEntry) (s : State) :
    pushCode e s = { s with
      pending := (splice s.pending s.offset e.code e.len.toNat).1
      offset := (splice s.pending s.offset e.code e.len.toNat).2.1
      outRank := s.outRank ++ (splice s.pending s.offset e.code e.len.toNat).2.2 } := by
  simp [pushCode, emitRankAll_eq]

/-- A faulting command records its own fault, and its meaning says so. -/
theorem raiseFaultOf_ownFault {i : Instr} {s : State} {code : FaultCode} (h : s.halted = false) (hc : code ≠ .none)
    (hf : ownFault i s = code) : raiseFaultOf code i s = .next (afterCommand i s) := by
  rw [afterCommand_faults h (hf ▸ hc), hf, raiseFaultOf_eq]

theorem exec_freqInc_running {b : Byte} {s : State} (h : s.halted = false) :
    exec (.freqInc b) s = .next (afterCommand (.freqInc b) s) := by
  have e : (s.freqAt b).toNat = 2 ^ 32 - 1 ↔ s.freqAt b = Config.freqMax := by
    rw [← BitVec.toNat_inj]; rfl
  simp only [exec, execFreqInc, unlessHalted_running h]
  split
  · exact raiseFaultOf_ownFault h (by decide) (if_pos (e.2 ‹_›))
  · rename_i hn; rw [afterCommand_runs h (by simp only [ownFault, e, hn, if_false])]; rfl

theorem exec_rankPush_running {b : Byte} {s : State} (h : s.halted = false) :
    exec (.rankPush b) s = .next (afterCommand (.rankPush b) s) := by
  have e : (s.entryAt b).tooLong = true ↔ 8 < (s.entryAt b).len.toNat := decide_eq_true_iff
  simp only [exec, execRankPush, unlessHalted_running h]
  split <;> rename_i hr
  · exact raiseFaultOf_ownFault h (by decide) (by simp [ownFault, hr])
  · exact raiseFaultOf_ownFault h (by decide) (by simp [ownFault, hr])
  · split <;> rename_i hl <;> rw [e] at hl
    · exact raiseFaultOf_ownFault h (by decide) (by simp [ownFault, hr, hl])
    · rw [afterCommand_runs h (by simp [ownFault, hr, hl]), pushCode_eq]; rfl

theorem exec_rankFlush_running {s : State} (h : s.halted = false) :
    exec .rankFlush s = .next (afterCommand .rankFlush s) := by
  simp only [exec, execRankFlush, unlessHalted_running h]
  split <;> rename_i hr
  · exact raiseFaultOf_ownFault h (by decide) (by simp [ownFault, hr])
  · exact raiseFaultOf_ownFault h (by decide) (by simp [ownFault, hr])
  · rw [afterCommand_runs h (by simp [ownFault, hr]), effectOf]
    split <;> simp [emitRank]

theorem exec_rlePush_running {b : Byte} {s : State} (h : s.halted = false) :
    exec (.rlePush b) s = .next (afterCommand (.rlePush b) s) := by
  simp only [exec, execRlePush, unlessHalted_running h]
  split <;> rename_i hl
  · exact raiseFaultOf_ownFault h (by decide) (by simp [ownFault, hl])
  · rw [afterCommand_runs h (by simp [ownFault, hl])]; rfl

theorem exec_rleFlush_running {s : State} (h : s.halted = false) :
    exec .rleFlush s = .next (afterCommand .rleFlush s) := by
  simp only [exec, execRleFlush, unlessHalted_running h]
  split <;> rename_i hl
  · exact raiseFaultOf_ownFault h (by decide) (by simp [ownFault, hl])
  · rw [afterCommand_runs h (by simp [ownFault, hl]), effectOf]
    split <;> simp [emitPair, emitRle]

/-- What every command does, in every state. -/
theorem exec_eq (i : Instr) (s : State) : exec i s = .next (afterCommand i s) := by
  cases h : s.halted with
  | true =>
    have : afterCommand i s = s := by simp [afterCommand, h]
    rw [this]
    cases i <;> simp only [exec, execFreqClr, execFreqWr, execFreqInc, execRankBuild, execRankPush, execRankFlush, execRleInit,
      execRlePush, execRleFlush, unlessHalted_halted h]
  | false =>
    cases i with
    | freqInc b => exact exec_freqInc_running h
    | rankPush b => exact exec_rankPush_running h
    | rankFlush => exact exec_rankFlush_running h
    | rlePush b => exact exec_rlePush_running h
    | rleFlush => exact exec_rleFlush_running h
    | freqClr | freqWr _ _ | rankBuild | rleInit =>
      simp only [exec, execFreqClr, execFreqWr, execRankBuild, execRleInit, unlessHalted_running h, afterCommand, h, ownFault,
        effectOf, Bool.false_eq_true, if_false, if_true]

/-- A command never stops the block: `exec` answers a next state always. -/
theorem exec_next_iff {i : Instr} {s t : State} : exec i s = .next t ↔ t = afterCommand i s := by
  rw [exec_eq]
  exact ⟨fun h => (Host.Outcome.next.inj h).symm, fun h => by rw [h]⟩

/-- The four branches of the run-length machine in one form: the next COUNT, and the pair emitted, if any (43_rle.md R151). -/
theorem feedRun_eq (b : Byte) (s : State) :
    feedRun b s =
      if s.count = 0 then { s with last := b, count := 1 }
      else if b = s.last then
        if s.count < 255 then { s with count := s.count + 1 }
        else { s with count := 1, outRle := s.outRle ++ [255, s.last] }
      else { s with last := b, count := 1, outRle := s.outRle ++ [s.count, s.last] } := by
  unfold feedRun Config.countMax
  by_cases h0 : s.count = 0
  · simp only [h0, if_true]
  · by_cases hb : b = s.last
    · simp [hb, emitPair, emitRle]
    · simp [hb, emitPair, emitRle]

/-- No effect of a command writes FAULT or the host's side of the ports. -/
theorem effectOf_fault (i : Instr) (s : State) : (effectOf i s).fault = s.fault := by
  cases i <;> (simp only [effectOf, feedRun_eq]; repeat' first | rfl | split)

theorem effectOf_port (i : Instr) (s : State) : (effectOf i s).port = s.port := by
  cases i <;> (simp only [effectOf, feedRun_eq]; repeat' first | rfl | split)

theorem effectOf_readLog (i : Instr) (s : State) : (effectOf i s).readLog = s.readLog := by
  cases i <;> (simp only [effectOf, feedRun_eq]; repeat' first | rfl | split)

/-- A command looks at nothing of the host's side. -/
theorem afterCommand_withPort (i : Instr) (s : State) (p : List HostEvent) :
    afterCommand i { s with port := p } = { afterCommand i s with port := p } := by
  have h1 : ({ s with port := p } : State).halted = s.halted := rfl
  have h2 : ownFault i { s with port := p } = ownFault i s := rfl
  have h3 : effectOf i { s with port := p } = { effectOf i s with port := p } := by
    cases i <;> (simp only [effectOf, feedRun_eq]; repeat' first | rfl | split)
  unfold afterCommand
  rw [h1, h2, h3]
  split <;> [rfl; (split <;> rfl)]

end Sys2Proof.Machine
end

