-- ==== Sys2Proof/Laws/PerInstr.lean ====
section
/-! SUPPORT. The statements made for every command as syntax, one lemma per constructor. -/

namespace Sys2Proof.Laws.EncodedFieldsLegal

/-- The fields of the command's word meet none of the four conditions of 30_encoding.md R74. -/
def Statement (i : Instr) : Prop := (CmdFields.ofWord (encode i)).wellFormed = true

theorem freqClr : Statement .freqClr := by rw [Statement, ofWord_encode]; rfl
theorem freqWr (b : Byte) (v : Freq) : Statement (.freqWr b v) := by rw [Statement, ofWord_encode]; rfl
theorem freqInc (b : Byte) : Statement (.freqInc b) := by rw [Statement, ofWord_encode]; rfl
theorem rankBuild : Statement .rankBuild := by rw [Statement, ofWord_encode]; rfl
theorem rankPush (b : Byte) : Statement (.rankPush b) := by rw [Statement, ofWord_encode]; rfl
theorem rankFlush : Statement .rankFlush := by rw [Statement, ofWord_encode]; rfl
theorem rleInit : Statement .rleInit := by rw [Statement, ofWord_encode]; rfl
theorem rlePush (b : Byte) : Statement (.rlePush b) := by rw [Statement, ofWord_encode]; rfl
theorem rleFlush : Statement .rleFlush := by rw [Statement, ofWord_encode]; rfl

end Sys2Proof.Laws.EncodedFieldsLegal
end

