-- ==== Sys2Proof/Laws/RankPack.lean ====
section
/-! SUPPORT. The two cases of Splice (42_rank_pack.md R130): the byte is not yet full, or it is full and emitted. -/

namespace Sys2Proof.Machine

theorem splice_short {p : Byte} {o : BitVec 3} {c : CodeValue} {n : Nat} (h : o.toNat + n < 8) :
    splice p o c n = (p ||| (codeBits c n <<< (8 - (o.toNat + n))), BitVec.ofNat 3 (o.toNat + n), []) := by
  simp [splice, h]

theorem splice_full {p : Byte} {o : BitVec 3} {c : CodeValue} {n : Nat} (h : 8 ≤ o.toNat + n) :
    splice p o c n =
      (codeBits c n <<< (8 - (o.toNat + n - 8)), BitVec.ofNat 3 (o.toNat + n - 8), [p ||| (codeBits c n >>> (o.toNat + n - 8))]) := by
  simp [splice, Nat.not_lt.2 h]

/-- The code bits depend on the low `n` bits of the code alone. -/
theorem codeBits_toNat {c : CodeValue} {n : Nat} (h : n ≤ 8) : (codeBits c n).toNat = c.toNat % 2 ^ n := by
  rw [codeBits, BitVec.toNat_ofNat]
  exact Nat.mod_eq_of_lt (lt_of_lt_of_le (Nat.mod_lt _ (Nat.two_pow_pos n)) (Nat.pow_le_pow_right (by decide) h))

end Sys2Proof.Machine
end

