-- ==== Sys2Proof/Laws/RankTable.lean ====
section
/-! SUPPORT. What the sort and the walk do: the sort permutes the symbols, inserting keeps any order in which a new, lower symbol comes
before those of equal count, and the walk writes each symbol of its list once, at its position. -/

namespace Sys2Proof.Machine

theorem sortedSymbols_perm (f : FreqFile) : (sortedSymbols f).Perm allSymbols := List.perm_insertionSort _ _

theorem mem_sortedSymbols (f : FreqFile) (s : Byte) : s ∈ sortedSymbols f :=
  (sortedSymbols_perm f).mem_iff.2 (mem_allSymbols s)

theorem length_sortedSymbols (f : FreqFile) : (sortedSymbols f).length = 256 := by
  rw [(sortedSymbols_perm f).length_eq, length_allSymbols]

theorem nodup_sortedSymbols (f : FreqFile) : (sortedSymbols f).Nodup :=
  (sortedSymbols_perm f).nodup_iff.2 nodup_allSymbols

/-- What the walk over a list without repeats leaves at symbol `s`: the entry of the rank at which the list holds `s`, or the old entry.
`r k` are the running values at rank `k`. -/
theorem walkFrom_at {r : Nat → RunningCode × Nat} (hr : ∀ k, r (k + 1) = walkNext k (r k)) {l : List Byte} (hl : l.Nodup) (k : Nat)
    (t : CodeTable) (s : Byte) :
    (walkFrom l k (r k) t).at s = if s ∈ l then walkEntry (k + l.idxOf s) (r (k + l.idxOf s)) else t.at s := by
  induction l generalizing k t with
  | nil => simp [walkFrom]
  | cons a l ih =>
    rw [List.nodup_cons] at hl
    rw [walkFrom, ← hr, ih hl.2, CodeTable.at_write]
    by_cases h : s = a
    · subst h; simp [hl.1]
    · simp [h, List.idxOf_cons_ne l (Ne.symm h), Nat.add_assoc, Nat.add_comm 1]

end Sys2Proof.Machine
end

