-- ==== Sys2Proof/Laws/ReadPort.lean ====
section
/-! SUPPORT. Which register the read port shows at each address (10_state.md R33). -/

namespace Sys2Proof.Machine

theorem pageOf_append (k : BitVec 4) (b : Byte) : (k ++ b).extractLsb' 8 4 = k := by
  ext i hi
  simp only [BitVec.getElem_extractLsb', BitVec.getLsbD_append]
  simp [hi]

theorem lowByte_append (k : BitVec 4) (b : Byte) : (k ++ b).setWidth 8 = b := by
  ext i hi
  simp
  grind

/-- An address is its page, bits 11:8, and its low byte. -/
theorem address_eq (a : ReadAddr) : a = a.extractLsb' 8 4 ++ a.setWidth 8 := by
  ext i hi
  simp
  grind

theorem append_ne_of_page {k : BitVec 4} {b : Byte} {a : ReadAddr} (h : k ≠ a.extractLsb' 8 4) : k ++ b ≠ a := by
  rintro rfl
  exact h (pageOf_append k b).symm

theorem readPort_fault (s : State) : readPort 0x000 s = faultWord s := by simp [readPort]

theorem readPort_rankStat (s : State) : readPort 0x001 s = rankStatWord s := by simp [readPort]

theorem readPort_rleStat (s : State) : readPort 0x002 s = rleStatWord s := by simp [readPort]

theorem readPort_freq (b : Byte) (s : State) : readPort (0x1#4 ++ b) s = s.freqAt b := by
  simp only [readPort, append_ne_of_page (show 1#4 ≠ (0 : ReadAddr).extractLsb' 8 4 by decide),
    append_ne_of_page (show 1#4 ≠ (1 : ReadAddr).extractLsb' 8 4 by decide),
    append_ne_of_page (show 1#4 ≠ (2 : ReadAddr).extractLsb' 8 4 by decide), pageOf_append, lowByte_append, if_false]
  rfl

theorem readPort_table (b : Byte) (s : State) : readPort (0x2#4 ++ b) s = tableWordOf (s.entryAt b) := by
  simp only [readPort, append_ne_of_page (show 2#4 ≠ (0 : ReadAddr).extractLsb' 8 4 by decide),
    append_ne_of_page (show 2#4 ≠ (1 : ReadAddr).extractLsb' 8 4 by decide),
    append_ne_of_page (show 2#4 ≠ (2 : ReadAddr).extractLsb' 8 4 by decide), pageOf_append, lowByte_append, if_false]
  rfl

theorem pageOf_toNat (a : ReadAddr) : (a.extractLsb' 8 4).toNat = a.toNat / 256 := by
  simp only [BitVec.extractLsb'_toNat, Nat.shiftRight_eq_div_pow]
  omega

end Sys2Proof.Machine
end

