-- ==== Sys2Proof/Laws/Run.lean ====
section
/-! SUPPORT. Runs of commands: the state a list of commands leaves, safe runs taken apart command by command, and the induction over a
safe run, packaged once. -/

namespace Sys2Proof.Machine

/-- The state a list of commands leaves. -/
def afterAll : List Instr → State → State
  | [], s => s
  | i :: is, s => afterAll is (afterCommand i s)

/-- A run of commands never stops. -/
theorem runInstrs_eq (is : List Instr) (s : State) : runInstrs is s = .next (afterAll is s) := by
  induction is generalizing s with
  | nil => rfl
  | cons i is ih => rw [runInstrs, exec_eq]; exact ih _

theorem afterAll_append (is js : List Instr) (s : State) : afterAll (is ++ js) s = afterAll js (afterAll is s) := by
  induction is generalizing s with
  | nil => rfl
  | cons i is ih => exact ih _

/-- A halted block stays as it is through any run (60_exceptions.md R174). -/
theorem afterAll_halted {is : List Instr} {s : State} (h : s.halted = true) : afterAll is s = s := by
  induction is with
  | nil => rfl
  | cons i is ih => rw [afterAll, afterCommand_halted h, ih]

theorem safeRun_iff {is : List Instr} {s t : State} : SafeRun is s t ↔ t = afterAll is s ∧ t.halted = false := by
  rw [SafeRun, runInstrs_eq]
  exact ⟨fun h => ⟨(Host.Outcome.next.inj h.1).symm, h.2⟩, fun h => ⟨by rw [h.1], h.2⟩⟩

theorem halted_of_fault_eq {s t : State} (h : s.fault = t.fault) : s.halted = t.halted := by
  simp [State.halted, h]

theorem effectOf_halted (i : Instr) (s : State) : (effectOf i s).halted = s.halted :=
  halted_of_fault_eq (effectOf_fault i s)

theorem safeRun_nil {s t : State} (hs : s.halted = false) : SafeRun [] s t ↔ t = s := by
  rw [safeRun_iff, afterAll]
  exact ⟨fun h => h.1, fun h => ⟨h, h ▸ hs⟩⟩

/-- A safe run starts with a command whose own checks pass, and goes on from that command's effect. -/
theorem safeRun_cons {i : Instr} {is : List Instr} {s t : State} (hs : s.halted = false) :
    SafeRun (i :: is) s t ↔ ownFault i s = .none ∧ SafeRun is (effectOf i s) t := by
  rw [safeRun_iff, safeRun_iff, afterAll]
  by_cases h : ownFault i s = .none
  · rw [afterCommand_runs hs h]; simp [h]
  · rw [afterCommand_faults hs h, afterAll_halted (by simp [State.halted, h])]
    simp only [h, false_and, iff_false, not_and]
    rintro rfl
    simp [State.halted, h]

/-- What holds at the start of a safe run and is kept by the effect of each of its commands holds at its end. -/
theorem safeRun_induction {P : State → Prop} {is : List Instr} {s t : State} (hs : s.halted = false) (hr : SafeRun is s t)
    (start : P s)
    (keep : ∀ i ∈ is, ∀ s, s.halted = false → ownFault i s = .none → P s → P (effectOf i s)) : P t := by
  induction is generalizing s with
  | nil => rw [safeRun_nil hs] at hr; exact hr ▸ start
  | cons i is ih =>
    rw [safeRun_cons hs] at hr
    exact ih (by rw [effectOf_halted, hs]) hr.2 (keep i List.mem_cons_self s hs hr.1 start)
      fun j hj => keep j (List.mem_cons_of_mem i hj)

end Sys2Proof.Machine
end

