-- ==== Sys2Proof/Laws/Step.lean ====
section
/-! SUPPORT. What a step can do, said once, transaction by transaction. -/

namespace Sys2Proof.Machine

theorem step_idle {s : State} (h : s.port = []) : step s = .next s := by
  simp [step, h]

theorem step_transaction {s : State} {e : HostEvent} {rest : List HostEvent} (h : s.port = e :: rest) :
    step s = acceptEvent e { s with port := rest } := by
  simp [step, h]

/-- A halted block refuses every command word, legal or not (60_exceptions.md R174). -/
theorem acceptCommand_halted {w : CmdWord} {s : State} (h : s.halted = true) : acceptCommand w s = .next s := by
  unfold acceptCommand
  split
  · rw [exec_eq, afterCommand_halted h]
  · exact unlessHalted_halted h

theorem acceptCommand_decoded {w : CmdWord} {i : Instr} {s : State} (h : decode w = some i) :
    acceptCommand w s = .next (afterCommand i s) := by
  rw [acceptCommand, h]
  exact exec_eq i s

theorem acceptCommand_illegal {w : CmdWord} {s : State} (h : decode w = none) (hs : s.halted = false) :
    acceptCommand w s =
      .next { s with fault := ⟨.illegalCommand, (CmdFields.ofWord w).op, (CmdFields.ofWord w).b⟩ } := by
  rw [acceptCommand, h]
  exact unlessHalted_running hs

/-- Everything a step can do: idle, a command's effect or fault or refusal, an illegal word's fault, a read, or a reset. -/
theorem step_cases {s t : State} (h : step s = .next t) :
    (s.port = [] ∧ t = s) ∨
    (∃ w rest i, s.port = .command w :: rest ∧ decode w = some i ∧ t = afterCommand i { s with port := rest }) ∨
    (∃ w rest, s.port = .command w :: rest ∧ decode w = none ∧
      ((s.halted = true ∧ t = { s with port := rest }) ∨
       (s.halted = false ∧ t = { s with
          port := rest
          fault := ⟨.illegalCommand, (CmdFields.ofWord w).op, (CmdFields.ofWord w).b⟩ }))) ∨
    (∃ a rest, s.port = .read a :: rest ∧ t = performRead a { s with port := rest }) ∨
    (∃ rest, s.port = .reset :: rest ∧ t = takeReset { s with port := rest }) := by
  cases hp : s.port with
  | nil =>
    rw [step_idle hp] at h
    exact .inl ⟨rfl, (Host.Outcome.next.inj h).symm⟩
  | cons e rest =>
    rw [step_transaction hp] at h
    cases e with
    | command w =>
      cases hd : decode w with
      | some i =>
        rw [acceptEvent, acceptCommand_decoded hd] at h
        exact .inr (.inl ⟨w, rest, i, rfl, hd, (Host.Outcome.next.inj h).symm⟩)
      | none =>
        refine .inr (.inr (.inl ⟨w, rest, rfl, hd, ?_⟩))
        cases hh : s.halted with
        | true =>
          have hh' : ({ s with port := rest } : State).halted = true := hh
          rw [acceptEvent, acceptCommand_halted hh'] at h
          exact .inl ⟨rfl, (Host.Outcome.next.inj h).symm⟩
        | false =>
          have hh' : ({ s with port := rest } : State).halted = false := hh
          rw [acceptEvent, acceptCommand_illegal hd hh'] at h
          exact .inr ⟨rfl, (Host.Outcome.next.inj h).symm⟩
    | read a => exact .inr (.inr (.inr (.inl ⟨a, rest, rfl, (Host.Outcome.next.inj h).symm⟩)))
    | reset => exact .inr (.inr (.inr (.inr ⟨rest, rfl, (Host.Outcome.next.inj h).symm⟩)))

end Sys2Proof.Machine
end

