-- ==== Sys2Proof/Tests/Slice0.lean ====
section
/-! SUPPORT. The model's own tests: decoding of words written out from the spec, refused ill-formed terms, single steps with the values of
95_test_vectors.md, and a witness for the hypotheses of every statement. -/

namespace Sys2Proof.Tests

open Sys2Proof Sys2Proof.Machine

/-! ### Decoding: bit patterns of 30_encoding.md R73 and words of 95_test_vectors.md -/

theorem test_decode_freqClr : decode 0b0000000100000000000000000000000000000000000000000000000000000000 = some .freqClr := by decide
theorem test_decode_freqWr :
    decode 0b0000001000000000000000000000000000000000000000000110010001100001 = some (.freqWr 0x61 100) := by decide
theorem test_decode_freqInc :
    decode 0b0000001100000000000000000000000000000000000000000000000001100010 = some (.freqInc 0x62) := by decide
theorem test_decode_rankBuild : decode 0b0001000000000000000000000000000000000000000000000000000000000000 = some .rankBuild := by decide
theorem test_decode_rankPush :
    decode 0b0001000100000000000000000000000000000000000000000000000000110111 = some (.rankPush 0x37) := by decide
theorem test_decode_rankFlush : decode 0b0001001000000000000000000000000000000000000000000000000000000000 = some .rankFlush := by decide
theorem test_decode_rleInit : decode 0b0010000000000000000000000000000000000000000000000000000000000000 = some .rleInit := by decide
theorem test_decode_rlePush :
    decode 0b0010000100000000000000000000000000000000000000000000000001100001 = some (.rlePush 0x61) := by decide
theorem test_decode_rleFlush : decode 0b0010001000000000000000000000000000000000000000000000000000000000 = some .rleFlush := by decide

/-- The highest V and B bits arrive (30_encoding.md R71). -/
theorem test_decode_freqWr_ends : decode 0x0200008000000180 = some (.freqWr 0x80 0x80000001) := by decide

/-- V-X1, V-X5, V-X6: the zero word and unassigned OP values. -/
theorem test_illegal_op : decode 0 = none ∧ decode 0xFF00000000000012 = none ∧ decode 0x00000000000000AB = none := by decide
/-- V-X3, V-X7: RSV must be 0, at both of its ends. -/
theorem test_illegal_rsv : decode 0x2100010000000041 = none ∧ decode 0x0280000000000101 = none := by decide
/-- V-X4, V-X8: an unused V must be 0. -/
theorem test_illegal_v : decode 0x1100000000000141 = none ∧ decode 0x2000000000123400 = none := by decide
/-- V-X2: an unused B must be 0. -/
theorem test_illegal_b : decode 0x100000000000005A = none := by decide

theorem test_decodeTableWord : decodeTableWord 64 0x1100000000000037 = some (.rankPush 0x37) := by decide

/-! ### Well-formedness: one ill-formed term for each check -/

theorem test_wf_fields_accepts : (⟨0x02, 0, 100, 0x61⟩ : CmdFields).wellFormed = true := by decide
theorem test_wf_refuses_op : (⟨0x13, 0, 0, 0⟩ : CmdFields).wellFormed = false := by decide
theorem test_wf_refuses_rsv : (⟨0x02, 1, 100, 0x61⟩ : CmdFields).wellFormed = false := by decide
theorem test_wf_refuses_v : (⟨0x03, 0, 1, 0x61⟩ : CmdFields).wellFormed = false := by decide
theorem test_wf_refuses_b : (⟨0x12, 0, 0, 1⟩ : CmdFields).wellFormed = false := by decide

theorem test_wf_stmt_accepts : (⟨.freqWr, [255, 4294967295]⟩ : AsmStmt).wellFormed = true := by decide
theorem test_wf_refuses_arity : (⟨.rankFlush, [1]⟩ : AsmStmt).wellFormed = false := by decide
theorem test_wf_refuses_b_range : (⟨.rankPush, [256]⟩ : AsmStmt).wellFormed = false := by decide
theorem test_wf_refuses_v_range : (⟨.freqWr, [0, 4294967296]⟩ : AsmStmt).wellFormed = false := by decide

/-! ### Assembler lines (30_encoding.md R76, R77; words and lines of 95_test_vectors.md) -/

theorem test_asm_line : assembleLine "freq_wr 'a', 0x64 ; load".toList = some [.freqWr 0x61 100] := by decide
theorem test_asm_repeat : assembleLine "RLE_PUSH 'A' x 3".toList = some [.rlePush 0x41, .rlePush 0x41, .rlePush 0x41] := by
  decide
theorem test_asm_comment : assembleLine "  ; nothing".toList = some [] := by decide
/-- Log 11: a character literal may touch its neighbours. -/
theorem test_asm_touching : assembleLine "RLE_PUSH'A'x 2".toList = some [.rlePush 0x41, .rlePush 0x41] := by decide
theorem test_asm_error : assembleLine "RANK_PUSH 256".toList = none := by decide
/-- Log 11: a pseudo-instruction's name begins no line of text. -/
theorem test_asm_pseudo_name : assembleLine "RANK_ENCODE 'A'".toList = none := by decide
theorem test_asm_missing_comma : assembleLine "FREQ_WR 1 2".toList = none := by decide

/-! ### Single steps, with the values of 95_test_vectors.md -/

/-- One component of the state that an outcome gives. -/
def see {α : Type} (r : Result) (f : State → α) : Option α :=
  match r with
  | .next t => some (f t)
  | .fault _ => none
  | .refused _ => none

/-- Reset with one count loaded. -/
def counted (b : Byte) (v : Freq) : State := { State.reset with freq := FreqFile.zero.write b v }

/-- An open rank stream whose table holds one entry. -/
def packing (b : Byte) (e : TableEntry) (p : Byte) (o : BitVec 3) : State :=
  { State.reset with table := CodeTable.absent.write b e, rlife := .opened, pending := p, offset := o }

/-- An open RLE engine with a run in progress. -/
def running (v n : Byte) : State := { State.reset with last := v, count := n }

/-- A halted block: V-X10. -/
def stopped : State := { State.reset with fault := ⟨.noInstance, 0x12, 0⟩ }

/-- V-F1. -/
theorem test_freqClr : see (exec .freqClr (counted 0x61 5)) (readPort 0x161) = some 0 := by decide
/-- V-F3. -/
theorem test_freqWr : see (exec (.freqWr 0 0xFFFFFFFF) State.reset) (readPort 0x100) = some 0xFFFFFFFF := by decide
/-- V-F5. -/
theorem test_freqInc : see (exec (.freqInc 0x41) (counted 0x41 0xFFFFFFFE)) (readPort 0x141) = some 0xFFFFFFFF := by decide
/-- V-F6. -/
theorem test_freqInc_overflow :
    see (exec (.freqInc 0x41) (counted 0x41 0xFFFFFFFF)) (fun t => (readPort 0 t, readPort 0x141 t)) =
      some (0x00410306, 0xFFFFFFFF) := by decide
/-- V-R8: bits pending in an open stream are discarded, and nothing is emitted. -/
theorem test_rankBuild : see (exec .rankBuild (packing 8 ⟨0, 1, 0⟩ 0x80 2)) (fun t => (t.pending, t.offset, t.rlife, t.outRank)) =
    some (0, 0, .opened, []) := by decide
theorem counted_at (b c : Byte) (v : Freq) : (counted b v).freqAt c = if c = b then v else 0 := by
  simp only [counted, State.freqAt, FreqFile.at_write, FreqFile.at_zero]

/-- The sort with the counts of `counted` written out, which the kernel evaluates much faster. -/
theorem sorted_counted (b : Byte) (v : Freq) : sortedSymbols (counted b v).freq =
    allSymbols.insertionSort (fun s t => (if t = b then v else 0) ≤ (if s = b then v else 0 : Freq)) := by
  have h (c : Byte) : (counted b v).freq.at c = if c = b then v else 0 := counted_at b c v
  simp only [sortedSymbols, h]

/-- By R111 and R113, a counted symbol takes rank 0 though it is not the lowest, and symbol 6, below it, rank 7. -/
theorem test_rankWalk :
    (rankWalk (counted 0x08 9).freq).at 0x08 = ⟨0, 1, 0⟩ ∧ (rankWalk (counted 0x08 9).freq).at 0x06 = ⟨254, 8, 7⟩ := by
  simp only [rankWalk, sorted_counted]
  decide +kernel

/-- V-P6: the largest carry. -/
theorem test_rankPush_carry :
    see (exec (.rankPush 0x37) (packing 0x37 ⟨254, 8, 7⟩ 0xFC 7)) (fun t => (t.pending, t.offset, t.outRank)) =
      some (0xFC, 7, [0xFD]) := by decide
/-- The fault word of V-X11: LEN 9 is refused. -/
theorem test_rankPush_long :
    see (exec (.rankPush 8) (packing 8 ⟨510, 9, 8⟩ 0 0)) (fun t => (readPort 0 t, readPort 1 t)) =
      some (0x00081103, 0x00000001) := by decide
/-- V-R2. -/
theorem test_rankFlush : see (exec .rankFlush (packing 0x61 ⟨0, 1, 0⟩ 0 1)) (fun t => (t.outRank, readPort 1 t)) =
    some ([0], 0x00000012) := by decide
/-- V-X10. -/
theorem test_rankFlush_no_table : see (exec .rankFlush State.reset) (readPort 0) = some 0x00001205 := by decide
/-- V-L10: RLE_INIT discards a run. -/
theorem test_rleInit : see (exec .rleInit (running 0x78 2)) (fun t => (t.outRle, readPort 2 t)) = some ([], 0x00000001) := by
  decide
/-- V-L4: the 256th equal byte. -/
theorem test_rlePush_full : see (exec (.rlePush 0x41) (running 0x41 255)) (fun t => (t.outRle, t.count)) =
    some ([0xFF, 0x41], 1) := by decide
/-- V-L7: a run ends. -/
theorem test_rlePush_change : see (exec (.rlePush 0x62) (running 0x61 2)) (fun t => (t.outRle, readPort 2 t)) =
    some ([0x02, 0x61], 0x00016201) := by decide
/-- P6: a run is flushed, and LAST and COUNT stay. -/
theorem test_rleFlush : see (exec .rleFlush (running 0x78 1)) (fun t => (t.outRle, readPort 2 t)) =
    some ([0x01, 0x78], 0x00017802) := by decide
/-- V-X12. -/
theorem test_rleFlush_closed : see (exec .rleFlush { State.reset with llife := .closed }) (readPort 0) = some 0x00002204 := by
  decide
/-- V-X2: an illegal word on the port. -/
theorem test_step_illegal : see (step { State.reset with port := [.command 0x100000000000005A] }) (readPort 0) = some 0x005A1001 := by
  decide
/-- V-X13: a halted block keeps its first fault. -/
theorem test_step_halted : see (step { stopped with port := [.command 0] }) (readPort 0) = some 0x00001205 := by decide
/-- P6: reset ends the halted state. -/
theorem test_step_reset : see (step { stopped with port := [.reset] }) (fun t => (readPort 0 t, readPort 2 t)) = some (0, 1) := by
  decide
/-- The placed word is the next one to run. -/
theorem test_withFetchWord : see (step (State.reset.withFetchWord 64 0x2100000000000061)) (readPort 2) = some 0x00016101 := by
  decide

/-! ### Witnesses: states and operands that meet the hypotheses of the statements -/

/-- EncodeDecodeRoundTrip, StepRunsTheDecodedCommand. -/
theorem witness_decodes : decode 0x1100000000000037 = some (.rankPush 0x37) := by decide

/-- IllegalWordsFaultAndDoNothingElse: each of the four conditions alone, on a block that is not halted. -/
theorem witness_illegal_words :
    ([0xFF00000000000012, 0x0280000000000101, 0x1100000000000141, 0x100000000000005A] : List CmdWord).map decode =
      [none, none, none, none] ∧ State.reset.halted = false := by decide

/-- DecoderAgreesWithMatchAndMask: a word that selects a row, with V and B at their largest. -/
theorem witness_selects : (⟨.freqWr, 0x0200000000000000, 0xFFFFFF0000000000⟩ : OpcodeRow).selects 0x020000FFFFFFFFFF = true := by decide

/-- AssemblerRejectsOutOfRangeOperands: a wrong number of operands, a statement that assembles, both sides of each bound. -/
theorem witness_assembler :
    ([] : List Nat).length ≠ Mnemonic.arity .freqInc ∧ assembleStmt ⟨.freqInc, [255]⟩ = some (.freqInc 255) ∧
    assembleStmt ⟨.freqInc, [256]⟩ = none ∧ assembleStmt ⟨.freqWr, [0, 4294967295]⟩ = some (.freqWr 0 4294967295) ∧
    assembleStmt ⟨.freqWr, [0, 4294967296]⟩ = none := by decide

/-- StepRunsTheDecodedCommand, ReadHasNoSideEffect, ResetSetsEveryElement, ResetKeepsTheHostSide, IdleBlockKeepsAllState: what stands at the head of the port. -/
theorem witness_ports :
    ({ State.reset with port := [.command 0x1100000000000037] } : State).port = .command 0x1100000000000037 :: [] ∧
    ({ State.reset with port := [.read 0x002, .reset] } : State).port = .read 0x002 :: [.reset] ∧
    ({ stopped with port := [.reset] } : State).port = .reset :: [] ∧ State.reset.port = [] := by decide

/-- StepRunsTheDecodedCommand, its last two clauses: an illegal word before a block that runs, and a word before a halted block. -/
theorem witness_refused_ports :
    ({ State.reset with port := [.command 0x100000000000005A] } : State).port = .command 0x100000000000005A :: [] ∧
    decode 0x100000000000005A = none ∧ ({ State.reset with port := [.command 0x100000000000005A] } : State).halted = false ∧
    ({ stopped with port := [.command 0, .read 0] } : State).port = .command 0 :: [.read 0] ∧
    ({ stopped with port := [.command 0, .read 0] } : State).halted = true := by decide

/-- ReadPortRegisterMap, ReadHasNoSideEffect: the unmapped ranges at each of their ends (V-M6), and mapped neighbours, whose first and last
registers do not read as 0 here. -/
theorem witness_unmapped :
    ([0x003, 0x0FF, 0x300, 0xFFF] : List ReadAddr).map (fun a =>
      (decide ((2 < a.toNat ∧ a.toNat < 0x100) ∨ 0x300 ≤ a.toNat), readPort a (counted 0 7))) = List.replicate 4 (true, 0) ∧
    ([0x002, 0x100] : List ReadAddr).map (fun a =>
      (decide ((2 < a.toNat ∧ a.toNat < 0x100) ∨ 0x300 ≤ a.toNat), readPort a (counted 0 7))) = [(false, 1), (false, 7)] := by
  decide

/-- UnitsAreReadyAfterReset: a safe run without RANK_BUILD from reset. -/
theorem witness_run_without_build : ∃ t, Instr.rankBuild ∉ [Instr.freqInc 0x61, .rlePush 0x61] ∧
    SafeRun [.freqInc 0x61, .rlePush 0x61] (takeReset stopped) t :=
  ⟨_, by decide, rfl, rfl⟩

/-- Every statement with the hypothesis that the block is not halted, and HaltedBlockRefusesUntilReset. -/
theorem witness_halted : State.reset.halted = false ∧ stopped.halted = true := by decide

/-- FreqIncCountsOrOverflows, FreqWrLoadsOneCount: the last count that goes up and the count that faults. -/
theorem witness_counts :
    ((counted 0x41 0xFFFFFFFE).freqAt 0x41).toNat < 2 ^ 32 - 1 ∧ (counted 0x41 0xFFFFFFFE).halted = false ∧
    ((counted 0x41 0xFFFFFFFF).freqAt 0x41).toNat = 2 ^ 32 - 1 ∧ (counted 0x41 0xFFFFFFFF).halted = false := by decide

/-- FreqIncRepeatedStopsAtTheMaximum: its two ranges where they meet. -/
theorem witness_repeated :
    ((counted 0x41 0xFFFFFFFE).freqAt 0x41).toNat + 1 ≤ 2 ^ 32 - 1 ∧ 2 ^ 32 - 1 < ((counted 0x41 0xFFFFFFFE).freqAt 0x41).toNat + 2 := by
  decide

/-- FreqCountComputesFreqOf: a buffer with no symbol 2^32 times ("abacab", V-F7). -/
theorem witness_buffer : ∀ b, freqOf [0x61, 0x62, 0x61, 0x63, 0x61, 0x62] b < 2 ^ 32 :=
  fun _ => Nat.lt_of_le_of_lt List.count_le_length (by decide)

/-- RankBuildCreatesAFreshEncoder, WorkedCodeTables: the empty corpus, and the two worked corpora. -/
theorem witness_corpora :
    (∀ b, State.reset.freqAt b = 0) ∧
    (∃ s : State, s.halted = false ∧ ∀ b, s.freqAt b = if b = 0x61 ∨ b = 0x62 then 100 else 0) ∧
    (∃ s : State, s.halted = false ∧ ∀ b, s.freqAt b = if b = 0x62 then 3 else if b = 0x61 then 1 else 0) := by
  refine ⟨FreqFile.at_zero, ⟨{ State.reset with freq := (FreqFile.zero.write 0x61 100).write 0x62 100 }, rfl, fun b => ?_⟩,
    { State.reset with freq := (FreqFile.zero.write 0x61 1).write 0x62 3 }, rfl, fun b => ?_⟩ <;>
    simp only [State.freqAt, FreqFile.at_write, FreqFile.at_zero]
  by_cases h : b = 0x62 <;> by_cases h' : b = 0x61 <;> simp_all

/-- RankingIsTheStableDescendingSort, RankWalkHasItsClosedForm: a nonzero beside a zero count, and symbols of the two lowest ranks. -/
theorem witness_ranks :
    (counted 0x62 9).freq.at 0x62 ≠ 0 ∧ (counted 0x62 9).freq.at 0x61 = 0 ∧
    rankOf FreqFile.zero 254 = 254 ∧ rankOf FreqFile.zero 255 = 255 := by
  have tie (b : Byte) : rankOf FreqFile.zero b = allSymbols.countP fun t => decide (t < b) := by
    simp [rankOf, precedes, FreqFile.at_zero]
  rw [tie, tie]
  exact ⟨by decide, by decide +kernel, by decide +kernel, by decide +kernel⟩

/-- A FREQ file in which the symbols below `n` have the count 1. -/
def onesBelow (n : Nat) : FreqFile := Vector.ofFn fun i => if i.val < n then 1 else 0

/-- WideTellsOfALongPresentCode, TableIsASnapshotOfFreq: RANK_BUILD answers; eight nonzero counts and nine lie on the two sides of WIDE
(V-T7). -/
theorem witness_wide :
    (∃ t, exec .rankBuild State.reset = .next t) ∧
    wideFlag (onesBelow 8) = false ∧ wideFlag (onesBelow 9) = true := by
  have count (n : Nat) : nonzeroCount (onesBelow n) = allSymbols.countP fun s => (if s.toNat < n then 1 else 0 : Freq) != 0 := by
    simp [nonzeroCount, onesBelow, FreqFile.at]
  rw [wideFlag, wideFlag, count, count]
  exact ⟨⟨_, rfl⟩, by decide +kernel, by decide +kernel⟩

/-- TableIsASnapshotOfFreq, first clause; StreamsOnlyGrow; UnitsShareNoStateButFault in its cases. -/
theorem witness_other_commands :
    Instr.freqClr ≠ .rankBuild ∧ (∃ t, exec .freqClr stopped = .next t) ∧ (∃ t, exec (.rlePush 1) (running 1 255) = .next t) ∧
    isRleCommand (.rlePush 1) = true ∧ isRleCommand .freqClr = false :=
  ⟨by decide, ⟨_, rfl⟩, ⟨_, rfl⟩, rfl, rfl⟩

/-- SpliceAppendsTheCodeString: clean values of PENDING at both ends of OFFSET and of the length (V-P1, V-P3, V-P4, V-P6). -/
theorem witness_splice :
    ([(0x00, 0, 1), (0x00, 0, 8), (0xFE, 7, 1), (0xFC, 7, 8)] : List (Byte × BitVec 3 × Nat)).all (fun x =>
      decide (1 ≤ x.2.2 ∧ x.2.2 ≤ 8 ∧ x.1.toNat % 2 ^ (8 - x.2.1.toNat) = 0)) = true ∧
    splice 0x00 0 0x00 1 = (0x00, 1, []) ∧ splice 0x00 0 0xFE 8 = (0x00, 0, [0xFE]) ∧
    splice 0xFE 7 0x00 1 = (0x00, 0, [0xFE]) ∧ splice 0xFC 7 0xFE 8 = (0xFC, 7, [0xFD]) := by decide

/-- RankPushSplicesOrFaults: each clause, LEN at 1, 8 and 9, and the rule's example. -/
theorem witness_rankPush :
    State.reset.rlife = .none ∧ ({ packing 8 ⟨0, 1, 0⟩ 0 0 with rlife := .closed } : State).rlife = .closed ∧
    ([(⟨0, 1, 0⟩), (⟨254, 8, 7⟩)] : List TableEntry).all (fun e =>
      decide (1 ≤ ((packing 8 e 0 0).entryAt 8).len.toNat ∧ ((packing 8 e 0 0).entryAt 8).len.toNat ≤ 8)) = true ∧
    8 < ((packing 8 ⟨510, 9, 8⟩ 0 0).entryAt 8).len.toNat ∧
    ((packing 0x62 ⟨2, 2, 1⟩ 0x08 6).entryAt 0x62).code = 2 ∧ ((packing 0x62 ⟨2, 2, 1⟩ 0x08 6).entryAt 0x62).len = 2 ∧
    (packing 0x62 ⟨2, 2, 1⟩ 0x08 6).halted = false := by decide

/-- RankFlushDrainsAndCloses: an open stream with OFFSET 0 and one with the rule's example. -/
theorem witness_rankFlush :
    (packing 8 ⟨0, 1, 0⟩ 0 0).rlife = .opened ∧ (packing 8 ⟨0, 1, 0⟩ 0xA0 4).rlife = .opened ∧
    see (exec .rankFlush (packing 8 ⟨0, 1, 0⟩ 0 0)) State.outRank = some [] ∧
    see (exec .rankFlush (packing 8 ⟨0, 1, 0⟩ 0xA0 4)) State.outRank = some [0xA0] := by decide

/-- RankEmissionCount, its first two clauses: a push and a flush that leave the block running. -/
theorem witness_emission :
    see (exec (.rankPush 0x37) (packing 0x37 ⟨254, 8, 7⟩ 0xFC 7)) State.halted = some false ∧
    see (exec .rankFlush (packing 8 ⟨0, 1, 0⟩ 0xA0 4)) State.halted = some false := by decide

/-- RankEmissionCount, RankStreamIsThePaddedConcatenation: symbols at both ends of the accepted lengths. -/
theorem witness_pushable : (counted 0x08 9).halted = false ∧
    ∀ b ∈ ([0x08, 0x06] : List Byte), ((rankWalk (counted 0x08 9).freq).at b).len.toNat ≤ 8 := by
  refine ⟨rfl, fun b hb => ?_⟩
  obtain rfl | rfl := List.mem_pair.1 hb
  · rw [test_rankWalk.1]; decide
  · rw [test_rankWalk.2]; decide

/-- RleInitCreatesAFreshEncoder, RlePushStepsTheRunMachine, RleFlushEmitsTheLastRun: each clause, COUNT at 0, 1, 254 and 255. -/
theorem witness_rle :
    State.reset.llife = .opened ∧ State.reset.count = 0 ∧
    ((running 0x41 1).count ≠ 0 ∧ 0x41 = (running 0x41 1).last ∧ (running 0x41 254).count.toNat < 255) ∧
    (running 0x41 255).count = 255 ∧ ((running 0x41 1).count ≠ 0 ∧ 0x42 ≠ (running 0x41 1).last) ∧
    ({ State.reset with llife := .closed } : State).llife = .closed := by decide

/-- RleStreamIsTheRunPieces: an open idle engine on a block that is not halted; the pieces of a run of 256 (V-L4)
and of 510 (V-L5). -/
theorem witness_rle_stream : (State.reset.halted = false ∧ State.reset.llife = .opened ∧ State.reset.count = 0) ∧
    runPieces (256, 0x41) = [(255, 0x41), (1, 0x41)] ∧ runPieces (510, 0x41) = [(255, 0x41), (255, 0x41)] := by decide

/-- RlePiecesSpellTheInput: two neighbouring pieces of one value, and two of different values. -/
theorem witness_pieces : rlePieces [0x61, 0x61, 0x62] = [(2, 0x61), (1, 0x62)] := by decide

/-- FirstApplicableFaultIsRecordedPrecisely: an illegal word, a command that faults, a command that does not, a halted block. -/
theorem witness_faults :
    faultOfWord 0 State.reset = .illegalCommand ∧ faultOfWord 0x1100000000000041 State.reset = .unknownSymbol ∧
    faultOfWord 0x2100000000000041 State.reset = .none ∧ stopped.halted = true := by decide

/-- HaltedBlockRefusesUntilReset, last clause. -/
theorem witness_leaves_halt : ∃ t, acceptEvent .reset stopped = .next t ∧ t.halted = false := ⟨_, rfl, rfl⟩

/-- FirstFaultSurvivesAnyRun: a halted block with a command and a read waiting, and no reset. -/
theorem witness_survives : ∃ t, HostEvent.reset ∉ ([.command 0, .read 0] : List HostEvent) ∧
    runSteps 2 { stopped with port := [.command 0, .read 0] } = .next t :=
  ⟨_, by decide, rfl⟩

/-- An idle-table state with a run in progress and a flush waiting. -/
def flushing : State := { running 0x61 3 with port := [.command 0x2200000000000000] }

/-- StepKeepsTheInvariant, ReadPortAndStreamsShowAllState: a state with no table that meets the invariant, and its step. -/
theorem witness_inv : flushing.Inv ∧ ∃ t, step flushing = .next t :=
  ⟨⟨by decide, fun _ => ⟨rfl, rfl, rfl, rfl⟩, fun h => absurd rfl h, fun h => absurd h (by decide), fun _ => rfl, rfl⟩, ⟨_, rfl⟩⟩

/-- The all-tie table (41_rank_table.md R117). -/
def tieTable : CodeTable := Vector.ofFn fun i => closedEntry i.val

theorem tieTable_at (b : Byte) : tieTable.at b = closedEntry b.toNat := by simp [tieTable, CodeTable.at]

/-- StepKeepsTheInvariant, ReadPortAndStreamsShowAllState: a state with a table that meets the invariant. -/
theorem witness_inv_table : ({ State.reset with table := tieTable, rlife := .opened, pending := 0x80, offset := 2 } : State).Inv := by
  have r (b : Byte) : (tieTable.at b).rank = b := by rw [tieTable_at]; simp [closedEntry]
  exact ⟨by decide, fun h => absurd h (by decide),
    fun _ => ⟨fun b => by rw [r, tieTable_at], fun b c h => by simpa only [r] using h⟩, fun _ => rfl, fun _ => rfl, rfl⟩

/-- LifecyclesTellWhatHasRun, InterleavingDoesNotChangeEitherStream: safe runs of both engines, with and without the commands named. -/
theorem witness_safe_runs :
    (∃ t, SafeRun [.rankBuild, .rlePush 0x07] State.reset t) ∧ (∃ t, SafeRun [.freqClr, .rlePush 0x07, .rleFlush] State.reset t) ∧
    Instr.rleInit ∉ [Instr.rankBuild, .rlePush 0x07] :=
  ⟨⟨_, rfl, rfl⟩, ⟨_, rfl, rfl⟩, by decide⟩

/-- StreamsOnlyGrow: a step that is no reset. -/
theorem witness_grows : flushing.port.head? ≠ some .reset ∧ ∃ t, step flushing = .next t := ⟨by decide, _, rfl⟩

end Sys2Proof.Tests
end

/-! PROOFS. What a command can do, and the checks and effects that several statements need. -/

namespace Sys2Proof.Machine

/-- A command is refused, or has its effect, or records a fault and does nothing else. -/
theorem exec_cases {i : Instr} {s t : State} (h : exec i s = .next t) :
    t = s ∨ (ownFault i s = .none ∧ t = effectOf i s) ∨
    (∃ code, code ≠ .none ∧ t = { s with fault := ⟨code, opcodeOf i, bFieldOf i⟩ }) := by
  obtain rfl := exec_next_iff.1 h
  cases hh : s.halted with
  | true => exact .inl (afterCommand_halted hh)
  | false =>
    by_cases hf : ownFault i s = .none
    · exact .inr (.inl ⟨hf, afterCommand_runs hh hf⟩)
    · exact .inr (.inr ⟨_, hf, afterCommand_faults hh hf⟩)

theorem ownFault_rankPush_none {b : Byte} {s : State} :
    ownFault (.rankPush b) s = .none ↔ s.rlife = .opened ∧ (s.entryAt b).len.toNat ≤ 8 := by
  cases hr : s.rlife <;> simp [ownFault, hr]

theorem ownFault_rankFlush_none {s : State} : ownFault .rankFlush s = .none ↔ s.rlife = .opened := by
  cases hr : s.rlife <;> simp [ownFault, hr]

theorem count_add_one_ne_zero {c : Byte} (h : c < 255) : c + 1 ≠ 0 := by bv_omega

/-- A byte fed touches LAST, COUNT and OUT_RLE alone (43_rle.md R151). -/
theorem feedRun_frame (b : Byte) (s : State) :
    feedRun b s = { s with last := (feedRun b s).last, count := (feedRun b s).count, outRle := (feedRun b s).outRle } := by
  rw [feedRun_eq]
  split_ifs <;> rfl

/-- A byte fed leaves a run in progress (43_rle.md R151). -/
theorem feedRun_count_ne_zero (b : Byte) (s : State) : (feedRun b s).count ≠ 0 := by
  rw [feedRun_eq]
  split_ifs with idle same more
  · simp
  · exact count_add_one_ne_zero more
  · simp
  · simp

end Sys2Proof.Machine

/-! PROOFS. The rank walk has its closed form and leaves a whole table (41_rank_table.md R113; 10_state.md R25). -/

namespace Sys2Proof.Machine

/-- With bit 255 clear the rotation of R113 is a doubling. -/
theorem rotl256_toNat {x : RunningCode} (h : x.toNat < 2 ^ 255) : (rotl256 x).toNat = 2 * x.toNat := by
  have hi : x >>> 255 = 0 := by
    apply BitVec.eq_of_toNat_eq
    simpa [Nat.shiftRight_eq_div_pow] using h
  rw [rotl256, hi]
  simp [Nat.shiftLeft_eq]
  omega

/-- One step of the walk below rank 254 takes `1..10` to `1..110` (41_rank_table.md R113). -/
theorem rotl256_or_two {k : Nat} (hk : k < 254) {x : RunningCode} (hx : x.toNat = 2 ^ (k + 1) - 2) :
    (rotl256 x ||| 0b10).toNat = 2 ^ (k + 2) - 2 := by
  have hlt : 2 ^ (k + 1) ≤ 2 ^ 254 := Nat.pow_le_pow_right (by decide) (by omega)
  have hpos : 0 < 2 ^ k := Nat.two_pow_pos k
  have e1 : 2 ^ (k + 1) = 2 * 2 ^ k := by ring
  have e2 : 2 ^ (k + 2) = 4 * 2 ^ k := by ring
  have hr : (rotl256 x).toNat = 2 ^ 2 * (2 ^ k - 1) := by rw [rotl256_toNat (by omega)]; omega
  have ho : 2 ^ 2 * (2 ^ k - 1) + 2 = 2 ^ 2 * (2 ^ k - 1) ||| 2 := Nat.two_pow_add_eq_or_of_lt (by decide) _
  rw [BitVec.toNat_or, hr]
  change _ ||| 2 = _
  omega

/-- The running values of the walk, in closed form (41_rank_table.md R113). -/
theorem walkAt_closed (k : Nat) (hk : k ≤ 254) : (walkAt k).1.toNat = 2 ^ (k + 1) - 2 ∧ (walkAt k).2 = k + 1 := by
  induction k with
  | zero => exact ⟨rfl, rfl⟩
  | succ k ih =>
    obtain ⟨hcode, hlen⟩ := ih (by omega)
    have hne : k ≠ 254 := by omega
    simp only [walkAt, walkNext, if_pos hne]
    exact ⟨rotl256_or_two (by omega) hcode, by rw [hlen]⟩

theorem walkAt_255 : walkAt 255 = (BitVec.ofNat 256 (2 ^ 255 - 1), 255) := by
  obtain ⟨hcode, hlen⟩ := walkAt_closed 254 le_rfl
  have hc : (walkAt 254).1 = BitVec.ofNat 256 (2 ^ 255 - 2) := BitVec.eq_of_toNat_eq hcode
  show walkNext 254 (walkAt 254) = _
  rw [walkNext, if_neg (by decide), hc, hlen]
  decide

/-- The running values of every rank are those of its closed form (41_rank_table.md R113). -/
theorem walkAt_eq_closed {k : Nat} (hk : k < 256) : (walkAt k).1.toNat = closedCode k ∧ (walkAt k).2 = closedLen k := by
  rcases Nat.lt_or_ge k 255 with h | h
  · have h' : k ≤ 254 := by omega
    simp only [closedCode, closedLen, if_pos h']
    exact walkAt_closed k h'
  · obtain rfl : k = 255 := by omega
    rw [walkAt_255]
    exact ⟨rfl, rfl⟩

theorem walkEntry_walkAt {k : Nat} (hk : k < 256) : walkEntry k (walkAt k) = closedEntry k := by
  obtain ⟨hcode, hlen⟩ := walkAt_eq_closed hk
  rw [walkEntry, closedEntry, hlen, ← hcode, BitVec.ofNat_toNat]

theorem idxOf_sortedSymbols_lt (f : FreqFile) (s : Byte) : (sortedSymbols f).idxOf s < 256 :=
  length_sortedSymbols f ▸ List.idxOf_lt_length_iff.2 (mem_sortedSymbols f s)

/-- Each symbol gets the closed-form entry of its place in the sorted list (41_rank_table.md R113). -/
theorem rankWalk_at (f : FreqFile) (s : Byte) : (rankWalk f).at s = closedEntry ((sortedSymbols f).idxOf s) := by
  have h := walkFrom_at (r := walkAt) (fun _ => rfl) (nodup_sortedSymbols f) 0 CodeTable.absent s
  rw [if_pos (mem_sortedSymbols f s), Nat.zero_add, walkEntry_walkAt (idxOf_sortedSymbols_lt f s)] at h
  exact h

theorem closedEntry_rank_toNat {k : Nat} (hk : k < 256) : (closedEntry k).rank.toNat = k := by
  simp [closedEntry, Nat.mod_eq_of_lt hk]

theorem rankWalk_rank_toNat (f : FreqFile) (s : Byte) : ((rankWalk f).at s).rank.toNat = (sortedSymbols f).idxOf s := by
  rw [rankWalk_at, closedEntry_rank_toNat (idxOf_sortedSymbols_lt f s)]

/-- RANK_BUILD leaves a whole table: closed-form entries, no rank twice (10_state.md R25). -/
theorem rankWalk_built (f : FreqFile) : (rankWalk f).Built := by
  refine ⟨fun b => by rw [rankWalk_rank_toNat, rankWalk_at], fun b c h => ?_⟩
  have hidx : (sortedSymbols f).idxOf b = (sortedSymbols f).idxOf c := by
    rw [← rankWalk_rank_toNat, ← rankWalk_rank_toNat, h]
  exact (List.idxOf_inj (mem_sortedSymbols f b)).1 hidx

end Sys2Proof.Machine

/-! PROOFS. What splicing and emitting pairs keep (10_state.md R34, item 2; 43_rle.md R151). -/

namespace Sys2Proof.Machine

theorem toNat_shiftLeft_mod {x : Byte} {k : Nat} (hk : k ≤ 8) : (x <<< k).toNat % 2 ^ k = 0 := by
  rw [BitVec.toNat_shiftLeft, Nat.mod_mod_of_dvd _ (Nat.pow_dvd_pow 2 hk), Nat.shiftLeft_eq, Nat.mul_mod_left]

/-- Splice leaves the unused low bits of PENDING at 0 (10_state.md R34, item 2). -/
theorem splice_clean {p : Byte} {o : BitVec 3} {c : CodeValue} {n : Nat} (hn : n ≤ 8)
    (hp : p.toNat % 2 ^ (8 - o.toNat) = 0) :
    (splice p o c n).1.toNat % 2 ^ (8 - (splice p o c n).2.1.toNat) = 0 := by
  rcases Nat.lt_or_ge (o.toNat + n) 8 with h | h
  · have hold : p.toNat % 2 ^ (8 - (o.toNat + n)) = 0 :=
      Nat.mod_eq_zero_of_dvd ((Nat.pow_dvd_pow 2 (by omega)).trans (Nat.dvd_of_mod_eq_zero hp))
    rw [splice_short h]
    simp only [BitVec.toNat_ofNat, Nat.mod_eq_of_lt h, BitVec.toNat_or, Nat.or_mod_two_pow, hold,
      toNat_shiftLeft_mod (Nat.sub_le 8 (o.toNat + n)), Nat.or_self]
  · have hr : (BitVec.ofNat 3 (o.toNat + n - 8)).toNat = o.toNat + n - 8 := by
      have := o.isLt
      rw [BitVec.toNat_ofNat]; omega
    rw [splice_full h, hr]
    exact toNat_shiftLeft_mod (Nat.sub_le _ _)

theorem wholePairs_append_pair {l : List Byte} {n v : Byte} (hl : wholePairs l = true) (hn : n ≠ 0) :
    wholePairs (l ++ [n, v]) = true := by
  induction l using wholePairs.induct with
  | case1 => simpa [wholePairs] using hn
  | case2 x => cases hl
  | case3 m x rest ih =>
    simp only [wholePairs, Bool.and_eq_true, List.cons_append] at hl ⊢
    exact ⟨hl.1, ih hl.2⟩

theorem wholePairs_feedRun {b : Byte} {s : State} (h : wholePairs s.outRle = true) :
    wholePairs (feedRun b s).outRle = true := by
  rw [feedRun_eq]
  split_ifs with idle same more
  · exact h
  · exact h
  · exact wholePairs_append_pair h (by decide)
  · exact wholePairs_append_pair h idle

end Sys2Proof.Machine

/-! PROOFS. The invariant of 10_state.md R34: it holds after reset, and every step keeps it. -/

namespace Sys2Proof.Machine

theorem reset_inv : State.reset.Inv where
  pending_clean := by decide
  no_instance _ := ⟨rfl, rfl, rfl, rfl⟩
  table_built h := absurd rfl h
  idle_last _ := rfl
  fault_clear _ := rfl
  pairs_whole := rfl

/-- The invariant says nothing of the host's side. -/
theorem State.Inv.withHost {s : State} (h : s.Inv) (p : List HostEvent) (l : List ReadWord) :
    ({ s with port := p, readLog := l } : State).Inv :=
  { h with }

/-- The invariant says nothing of the counts. -/
theorem State.Inv.withFreq {s : State} (h : s.Inv) (f : FreqFile) : ({ s with freq := f } : State).Inv :=
  { h with }

theorem State.Inv.withFault {s : State} (h : s.Inv) {c : FaultCode} (hc : c ≠ .none) (op b : Byte) :
    ({ s with fault := ⟨c, op, b⟩ } : State).Inv :=
  { h with fault_clear := fun h0 => absurd h0 hc }

theorem effectOf_rankBuild_inv {s : State} (h : s.Inv) : (effectOf .rankBuild s).Inv :=
  { h with
    pending_clean := Nat.zero_mod _
    no_instance := nofun
    table_built := fun _ => by simpa only [effectOf] using rankWalk_built s.freq }

theorem effectOf_rankPush_inv {b : Byte} {s : State} (h : s.Inv) (hf : ownFault (.rankPush b) s = .none) :
    (effectOf (.rankPush b) s).Inv := by
  obtain ⟨hopen, hlen⟩ := ownFault_rankPush_none.1 hf
  have hne : s.rlife ≠ .none := by rw [hopen]; nofun
  exact { h with
    pending_clean := splice_clean hlen h.pending_clean
    no_instance := fun h0 => absurd h0 hne }

theorem effectOf_rankFlush_inv {s : State} (h : s.Inv) (hf : ownFault .rankFlush s = .none) :
    (effectOf .rankFlush s).Inv := by
  have hne : s.rlife ≠ .none := by rw [ownFault_rankFlush_none.1 hf]; nofun
  exact { h with
    no_instance := nofun
    table_built := fun _ => h.table_built hne }

theorem effectOf_rleInit_inv {s : State} (h : s.Inv) : (effectOf .rleInit s).Inv :=
  { h with idle_last := fun _ => rfl }

theorem effectOf_rlePush_inv {b : Byte} {s : State} (h : s.Inv) : (effectOf (.rlePush b) s).Inv := by
  rw [effectOf, feedRun_frame]
  exact { h with
    idle_last := fun h0 => absurd h0 (feedRun_count_ne_zero b s)
    pairs_whole := wholePairs_feedRun h.pairs_whole }

theorem effectOf_rleFlush_inv {s : State} (h : s.Inv) : (effectOf .rleFlush s).Inv := by
  have hpairs : wholePairs (effectOf .rleFlush s).outRle = true := by
    simp only [effectOf]
    split
    · rw [List.append_nil]; exact h.pairs_whole
    · exact wholePairs_append_pair h.pairs_whole ‹_›
  exact { h with pairs_whole := hpairs }

theorem effectOf_inv {i : Instr} {s : State} (h : s.Inv) (hf : ownFault i s = .none) : (effectOf i s).Inv := by
  cases i with
  | freqClr | freqWr _ _ | freqInc _ => exact h.withFreq _
  | rankBuild => exact effectOf_rankBuild_inv h
  | rankPush b => exact effectOf_rankPush_inv h hf
  | rankFlush => exact effectOf_rankFlush_inv h hf
  | rleInit => exact effectOf_rleInit_inv h
  | rlePush b => exact effectOf_rlePush_inv h
  | rleFlush => exact effectOf_rleFlush_inv h

theorem exec_keeps_inv {i : Instr} {s t : State} (hs : s.Inv) (h : exec i s = .next t) : t.Inv := by
  obtain rfl | ⟨hf, rfl⟩ | ⟨c, hc, rfl⟩ := exec_cases h
  · exact hs
  · exact effectOf_inv hs hf
  · exact hs.withFault hc _ _

/-- Settles O43. -/
theorem resetMeetsTheInvariant : Obligations.ResetMeetsTheInvariant := reset_inv

/-- Settles O44: transaction by transaction, a command by what `exec` can do. -/
theorem stepKeepsTheInvariant : Obligations.StepKeepsTheInvariant := by
  intro s t hs hstep
  obtain ⟨-, rfl⟩ | ⟨w, rest, i, -, -, rfl⟩ | ⟨w, rest, -, -, ⟨-, rfl⟩ | ⟨-, rfl⟩⟩ | ⟨a, rest, -, rfl⟩ | ⟨rest, -, rfl⟩ :=
    step_cases hstep
  · exact hs
  · exact exec_keeps_inv (hs.withHost rest _) (exec_eq i _)
  · exact hs.withHost rest _
  · exact (hs.withHost rest _).withFault (by decide) _ _
  · exact hs.withHost rest _
  · exact reset_inv.withHost rest _

end Sys2Proof.Machine

/-! PROOFS. What RLIFE and COUNT tell of a run (10_state.md R34, items 3 and 4). -/

namespace Sys2Proof.Machine

/-- A condition that each command of a safe run keeps exactly when it meets `Q` tells at the end of the run whether every command met `Q`. -/
theorem safeRun_iff_forall {P : State → Prop} {Q : Instr → Prop} {is : List Instr} {s t : State} (hs : s.halted = false)
    (hr : SafeRun is s t) (keep : ∀ i ∈ is, ∀ u, ownFault i u = .none → (P (effectOf i u) ↔ P u ∧ Q i)) :
    P t ↔ P s ∧ ∀ i ∈ is, Q i := by
  induction is generalizing s with
  | nil => rw [(safeRun_nil hs).1 hr]; simp
  | cons i is ih =>
    obtain ⟨hf, hrest⟩ := (safeRun_cons hs).1 hr
    rw [ih ((effectOf_halted i s).trans hs) hrest fun j hj => keep j (List.mem_cons_of_mem i hj),
      keep i List.mem_cons_self s hf, List.forall_mem_cons, and_assoc]

/-- RLIFE leaves NONE by RANK_BUILD alone, and nothing brings it back (10_state.md R24). -/
theorem effectOf_rlife_none_iff {i : Instr} {s : State} (hf : ownFault i s = .none) :
    (effectOf i s).rlife = .none ↔ s.rlife = .none ∧ i ≠ .rankBuild := by
  cases i with
  | rankFlush => simp [effectOf, ownFault_rankFlush_none.1 hf]
  | rlePush b => rw [effectOf, feedRun_frame]; simp
  | freqClr | freqWr _ _ | freqInc _ | rankBuild | rankPush _ | rleInit | rleFlush => simp [effectOf]

/-- Away from RLE_INIT, COUNT leaves 0 by RLE_PUSH alone, and nothing brings it back (10_state.md R34, item 4). -/
theorem effectOf_count_zero_iff {i : Instr} (hi : i ≠ .rleInit) (s : State) :
    (effectOf i s).count = 0 ↔ s.count = 0 ∧ ∀ b, i ≠ .rlePush b := by
  cases i with
  | rleInit => exact absurd rfl hi
  | rlePush b => exact iff_of_false (feedRun_count_ne_zero b s) fun h => h.2 b rfl
  | freqClr | freqWr _ _ | freqInc _ | rankBuild | rankPush _ | rankFlush | rleFlush => simp [effectOf]

/-- Settles O45: both lifecycles by the one induction over a safe run. -/
theorem lifecyclesTellWhatHasRun : Obligations.LifecyclesTellWhatHasRun := by
  intro is s t hs hr
  have hlife : t.rlife = .none ↔ s.rlife = .none ∧ ∀ i ∈ is, i ≠ .rankBuild :=
    safeRun_iff_forall (P := fun u => u.rlife = .none) hs hr fun _ _ _ hf => effectOf_rlife_none_iff hf
  have hbuild : (∀ i ∈ is, i ≠ .rankBuild) ↔ .rankBuild ∉ is :=
    ⟨fun h hm => h _ hm rfl, fun h i hm e => h (e ▸ hm)⟩
  refine ⟨fun h0 => by rw [hlife, hbuild, and_iff_right h0], fun hne h0 => hne (hlife.1 h0).1, fun h0 hinit => ?_⟩
  have hcount : t.count = 0 ↔ s.count = 0 ∧ ∀ i ∈ is, ∀ b, i ≠ .rlePush b :=
    safeRun_iff_forall (P := fun u => u.count = 0) hs hr fun i hi u _ => effectOf_count_zero_iff (fun e => hinit (e ▸ hi)) u
  rw [hcount, and_iff_right h0]
  exact ⟨fun h b hm => h _ hm b rfl, fun h i hm b e => h b (e ▸ hm)⟩

end Sys2Proof.Machine

/-! PROOFS. The output streams are append-only (10_state.md R32). -/

namespace Sys2Proof.Machine

theorem feedRun_outRle_grows (b : Byte) (s : State) : s.outRle <+: (feedRun b s).outRle := by
  rw [feedRun_eq]
  split_ifs
  · exact List.prefix_rfl
  · exact List.prefix_rfl
  · exact List.prefix_append _ _
  · exact List.prefix_append _ _

theorem effectOf_outRank_grows (i : Instr) (s : State) : s.outRank <+: (effectOf i s).outRank := by
  cases i with
  | rankPush _ | rankFlush => exact List.prefix_append _ _
  | rlePush b => rw [effectOf, feedRun_frame]
  | freqClr | freqWr _ _ | freqInc _ | rankBuild | rleInit | rleFlush => exact List.prefix_rfl

theorem effectOf_outRle_grows (i : Instr) (s : State) : s.outRle <+: (effectOf i s).outRle := by
  cases i with
  | rlePush b => exact feedRun_outRle_grows b s
  | rleFlush => exact List.prefix_append _ _
  | freqClr | freqWr _ _ | freqInc _ | rankBuild | rankPush _ | rankFlush | rleInit => exact List.prefix_rfl

theorem exec_streams_grow {i : Instr} {s t : State} (h : exec i s = .next t) :
    s.outRank <+: t.outRank ∧ s.outRle <+: t.outRle := by
  obtain rfl | ⟨-, rfl⟩ | ⟨c, -, rfl⟩ := exec_cases h
  · exact ⟨List.prefix_rfl, List.prefix_rfl⟩
  · exact ⟨effectOf_outRank_grows i s, effectOf_outRle_grows i s⟩
  · exact ⟨List.prefix_rfl, List.prefix_rfl⟩

/-- Settles O46. -/
theorem streamsOnlyGrow : Obligations.StreamsOnlyGrow := by
  intro s t hstep hreset
  obtain ⟨-, rfl⟩ | ⟨w, rest, i, -, -, rfl⟩ | ⟨w, rest, -, -, ⟨-, rfl⟩ | ⟨-, rfl⟩⟩ | ⟨a, rest, -, rfl⟩ | ⟨rest, hp, -⟩ :=
    step_cases hstep
  · exact ⟨List.prefix_rfl, List.prefix_rfl⟩
  · exact exec_streams_grow (s := { s with port := rest }) (exec_eq i _)
  · exact ⟨List.prefix_rfl, List.prefix_rfl⟩
  · exact ⟨List.prefix_rfl, List.prefix_rfl⟩
  · exact ⟨List.prefix_rfl, List.prefix_rfl⟩
  · exact absurd (by rw [hp]; rfl) hreset

end Sys2Proof.Machine

/-! PROOFS. The units share no state but FAULT (10_state.md R20). -/

namespace Sys2Proof.Machine

/-- The effect of an RLE command stays within the RLE engine (10_state.md R20). -/
theorem effectOf_rle_frame {i : Instr} (hi : isRleCommand i = true) (s : State) :
    effectOf i s = { s with
      fault := (effectOf i s).fault, llife := (effectOf i s).llife, last := (effectOf i s).last
      count := (effectOf i s).count, outRle := (effectOf i s).outRle } := by
  cases i with
  | rlePush b => simp only [effectOf]; rw [feedRun_frame]
  | rleInit | rleFlush => rfl
  | freqClr | freqWr _ _ | freqInc _ | rankBuild | rankPush _ | rankFlush => cases hi

/-- The effect of any other command stays within FREQ and the rank engine (10_state.md R20). -/
theorem effectOf_rank_frame {i : Instr} (hi : isRleCommand i = false) (s : State) :
    effectOf i s = { s with
      fault := (effectOf i s).fault, freq := (effectOf i s).freq, rlife := (effectOf i s).rlife
      table := (effectOf i s).table, wide := (effectOf i s).wide, pending := (effectOf i s).pending
      offset := (effectOf i s).offset, outRank := (effectOf i s).outRank } := by
  cases i with
  | rlePush _ | rleInit | rleFlush => cases hi
  | freqClr | freqWr _ _ | freqInc _ | rankBuild | rankPush _ | rankFlush => simp only [effectOf]

theorem effectOf_outRank {i : Instr} (hp : ∀ b, i ≠ .rankPush b) (hf : i ≠ .rankFlush) (s : State) :
    (effectOf i s).outRank = s.outRank := by
  cases i with
  | rankPush b => exact absurd rfl (hp b)
  | rankFlush => exact absurd rfl hf
  | rlePush b => rw [effectOf, feedRun_frame]
  | freqClr | freqWr _ _ | freqInc _ | rankBuild | rleInit | rleFlush => rfl

theorem effectOf_outRle {i : Instr} (hp : ∀ b, i ≠ .rlePush b) (hf : i ≠ .rleFlush) (s : State) :
    (effectOf i s).outRle = s.outRle := by
  cases i with
  | rlePush b => exact absurd rfl (hp b)
  | rleFlush => exact absurd rfl hf
  | freqClr | freqWr _ _ | freqInc _ | rankBuild | rankPush _ | rankFlush | rleInit => rfl

/-- Settles O47: a refusal and a fault entry are within every frame. -/
theorem unitsShareNoStateButFault : Obligations.UnitsShareNoStateButFault := by
  intro i s t h
  obtain rfl | ⟨-, rfl⟩ | ⟨c, -, rfl⟩ := exec_cases h
  · exact ⟨fun _ => rfl, fun _ => rfl, fun _ _ => rfl, fun _ _ => rfl⟩
  · exact ⟨fun hi => effectOf_rle_frame hi s, fun hi => effectOf_rank_frame hi s,
      fun hp hf => effectOf_outRank hp hf s, fun hp hf => effectOf_outRle hp hf s⟩
  · exact ⟨fun _ => rfl, fun _ => rfl, fun _ _ => rfl, fun _ _ => rfl⟩

end Sys2Proof.Machine

/-! PROOFS. The register map of the read port (10_state.md R33). -/

namespace Sys2Proof.Machine

/-! In these proofs `-Nat.reduceAdd` keeps the width of an append the sum that the library's lemmas about appends speak of. -/

theorem faultWord_fields (s : State) :
    (faultWord s).extractLsb' 0 8 = s.fault.code.toByte ∧ (faultWord s).extractLsb' 8 8 = s.fault.op ∧
    (faultWord s).extractLsb' 16 8 = s.fault.b ∧ (faultWord s).extractLsb' 24 8 = 0 := by
  simp [faultWord, -Nat.reduceAdd, BitVec.extractLsb'_append_eq_of_add_le, BitVec.extractLsb'_append_eq_of_le]

theorem rankStatWord_fields (s : State) :
    (rankStatWord s).extractLsb' 0 2 = s.rlife.toBits ∧ (rankStatWord s)[2] = s.wide ∧ (rankStatWord s)[3] = false ∧
    (rankStatWord s).extractLsb' 4 3 = s.offset ∧ (rankStatWord s)[7] = false ∧
    (rankStatWord s).extractLsb' 8 8 = s.pending ∧ (rankStatWord s).extractLsb' 16 16 = 0 := by
  simp [rankStatWord, -Nat.reduceAdd, BitVec.extractLsb'_append_eq_of_add_le, BitVec.extractLsb'_append_eq_of_le,
    ← BitVec.getLsbD_eq_getElem, BitVec.getLsbD_append]

theorem rleStatWord_fields (s : State) :
    (rleStatWord s).extractLsb' 0 2 = s.llife.toBits ∧ (rleStatWord s).extractLsb' 2 6 = 0 ∧
    (rleStatWord s).extractLsb' 8 8 = s.last ∧ (rleStatWord s).extractLsb' 16 8 = s.count ∧
    (rleStatWord s).extractLsb' 24 8 = 0 := by
  simp [rleStatWord, -Nat.reduceAdd, BitVec.extractLsb'_append_eq_of_add_le, BitVec.extractLsb'_append_eq_of_le]

theorem tableWordOf_fields (e : TableEntry) :
    (tableWordOf e).extractLsb' 0 8 = e.code.setWidth 8 ∧ (tableWordOf e).extractLsb' 8 8 = e.len ∧
    (tableWordOf e).extractLsb' 16 8 = e.rank ∧ (tableWordOf e).extractLsb' 24 8 = 0 := by
  simp [tableWordOf, -Nat.reduceAdd, BitVec.extractLsb'_append_eq_of_add_le, BitVec.extractLsb'_append_eq_of_le]

theorem readPort_unmapped {a : ReadAddr} (h : (2 < a.toNat ∧ a.toNat < 0x100) ∨ 0x300 ≤ a.toNat) (s : State) :
    readPort a s = 0 := by
  have page (k : BitVec 4) (hk : k.toNat = 1 ∨ k.toNat = 2) : a.extractLsb' 8 4 ≠ k := by
    rintro rfl
    rw [pageOf_toNat] at hk
    omega
  have stat (c : ReadAddr) (hc : c.toNat ≤ 2) : a ≠ c := by
    rintro rfl
    omega
  simp only [readPort, stat 0 (by decide), stat 1 (by decide), stat 2 (by decide), page 1 (by decide), page 2 (by decide), if_false]

theorem reset_freqAt (b : Byte) : State.reset.freqAt b = 0 := FreqFile.at_zero b

theorem reset_entryAt (b : Byte) : State.reset.entryAt b = .absent := CodeTable.at_absent b

/-- After reset RLE_STAT alone reads as nonzero, with LLIFE = OPEN (10_state.md R33). -/
theorem readPort_reset (a : ReadAddr) : readPort a State.reset = if a = 0x002 then 1 else 0 := by
  by_cases rleStat : a = 0x002
  · rw [rleStat, readPort_rleStat]; rfl
  · simp only [readPort, if_neg rleStat]
    split_ifs with fault rankStat freq table
    · rfl
    · rfl
    · exact reset_freqAt _
    · rw [reset_entryAt]; rfl
    · rfl

/-- Settles O13. -/
theorem readPortRegisterMap : Obligations.ReadPortRegisterMap := by
  intro s
  refine ⟨?_, ?_, ?_, fun b => readPort_freq b s, fun b => ?_, fun _ ha => readPort_unmapped ha s, readPort_reset⟩
  · rw [readPort_fault]; exact faultWord_fields s
  · rw [readPort_rankStat]; exact rankStatWord_fields s
  · rw [readPort_rleStat]; exact rleStatWord_fields s
  · rw [readPort_table]; exact tableWordOf_fields (s.entryAt b)

end Sys2Proof.Machine

/-! PROOFS. The read port and the streams show all state (10_state.md R35). -/

namespace Sys2Proof.Machine

theorem FaultCode.toByte_injective {a b : FaultCode} : a.toByte = b.toByte → a = b := by
  cases a <;> cases b <;> decide

theorem RLife.toBits_injective {a b : RLife} : a.toBits = b.toBits → a = b := by
  cases a <;> cases b <;> decide

theorem LLife.toBits_injective {a b : LLife} : a.toBits = b.toBits → a = b := by
  cases a <;> cases b <;> decide

theorem fault_of_faultWord_eq {s t : State} (h : faultWord s = faultWord t) : t.fault = s.fault := by
  obtain ⟨hcode, hop, hb, -⟩ := faultWord_fields s
  obtain ⟨hcode', hop', hb', -⟩ := h ▸ faultWord_fields t
  calc t.fault = ⟨t.fault.code, t.fault.op, t.fault.b⟩ := rfl
    _ = ⟨s.fault.code, s.fault.op, s.fault.b⟩ := by
      rw [FaultCode.toByte_injective (hcode'.symm.trans hcode), hop'.symm.trans hop, hb'.symm.trans hb]

theorem rank_fields_of_rankStatWord_eq {s t : State} (h : rankStatWord s = rankStatWord t) :
    t.rlife = s.rlife ∧ t.wide = s.wide ∧ t.offset = s.offset ∧ t.pending = s.pending := by
  obtain ⟨hlife, hwide, -, hoffset, -, hpending, -⟩ := rankStatWord_fields s
  obtain ⟨hlife', hwide', -, hoffset', -, hpending', -⟩ := h ▸ rankStatWord_fields t
  exact ⟨RLife.toBits_injective (hlife'.symm.trans hlife), hwide'.symm.trans hwide, hoffset'.symm.trans hoffset,
    hpending'.symm.trans hpending⟩

theorem rle_fields_of_rleStatWord_eq {s t : State} (h : rleStatWord s = rleStatWord t) :
    t.llife = s.llife ∧ t.last = s.last ∧ t.count = s.count := by
  obtain ⟨hlife, -, hlast, hcount, -⟩ := rleStatWord_fields s
  obtain ⟨hlife', -, hlast', hcount', -⟩ := h ▸ rleStatWord_fields t
  exact ⟨LLife.toBits_injective (hlife'.symm.trans hlife), hlast'.symm.trans hlast, hcount'.symm.trans hcount⟩

theorem rank_of_tableWordOf_eq {d e : TableEntry} (h : tableWordOf d = tableWordOf e) : e.rank = d.rank := by
  obtain ⟨-, -, hrank, -⟩ := tableWordOf_fields d
  obtain ⟨-, -, hrank', -⟩ := h ▸ tableWordOf_fields e
  exact hrank'.symm.trans hrank

/-- RANK fixes the code value, of which the read port shows only the low byte (10_state.md R25). -/
theorem table_of_tableWordOf_eq {s t : State} (hs : s.Inv) (ht : t.Inv) (hlife : t.rlife = s.rlife)
    (h : ∀ b, tableWordOf (s.entryAt b) = tableWordOf (t.entryAt b)) : t.table = s.table := by
  by_cases hn : s.rlife = .none
  · rw [(hs.no_instance hn).1, (ht.no_instance (hlife.trans hn)).1]
  · obtain ⟨hclosed, -⟩ := hs.table_built hn
    obtain ⟨hclosed', -⟩ := ht.table_built (hlife ▸ hn)
    have hrank (b : Byte) : (t.table.at b).rank = (s.table.at b).rank := rank_of_tableWordOf_eq (h b)
    exact CodeTable.ext_at fun b => by rw [hclosed b, hclosed' b, hrank b]

/-- Settles O49: each register's word gives its fields back, and under the invariant RANK gives the rest of TABLE. -/
theorem readPortAndStreamsShowAllState : Obligations.ReadPortAndStreamsShowAllState := by
  intro s t hs ht hread hrank hrle
  have hfault : t.fault = s.fault := fault_of_faultWord_eq (by simpa only [readPort_fault] using hread 0x000)
  have hcounts (b : Byte) : t.freqAt b = s.freqAt b := by simpa only [readPort_freq] using (hread (0x1#4 ++ b)).symm
  have hfreq : t.freq = s.freq := FreqFile.ext_at hcounts
  obtain ⟨hrlife, hwide, hoffset, hpending⟩ :=
    rank_fields_of_rankStatWord_eq (by simpa only [readPort_rankStat] using hread 0x001)
  obtain ⟨hllife, hlast, hcount⟩ :=
    rle_fields_of_rleStatWord_eq (by simpa only [readPort_rleStat] using hread 0x002)
  have htable : t.table = s.table :=
    table_of_tableWordOf_eq hs ht hrlife fun b => by simpa only [readPort_table] using hread (0x2#4 ++ b)
  rw [← hfault, ← hfreq, ← hrlife, ← htable, ← hwide, ← hpending, ← hoffset, ← hllife, ← hlast, ← hcount, hrank, hrle]

end Sys2Proof.Machine

/-! PROOFS. Each step takes one transaction from the port and executes it completely (20_memory.md R51, R59). -/

namespace Sys2Proof.Machine

/-- A command's own word decodes to the command (30_encoding.md R73, R75). -/
theorem decode_encode (i : Instr) : decode (encode i) = some i := by
  rw [decode, ofWord_encode]
  cases i <;> rfl

theorem tableWord_toNat (w : CmdWord) : tableWord 64 w.toNat = w := by
  rw [tableWord, Nat.mod_eq_of_lt w.isLt, BitVec.ofNat_toNat, BitVec.setWidth_eq]

theorem acceptCommand_eq_exec {w : CmdWord} {i : Instr} (h : decode w = some i) (s : State) : acceptCommand w s = exec i s := by
  rw [acceptCommand, h]

/-- A step takes a command's word from the port and runs the command to its end, whatever waits behind it. -/
theorem step_encoded (i : Instr) (s : State) (waiting : List HostEvent) :
    step { s with port := .command (encode i) :: waiting } = .next { afterCommand i s with port := waiting } := by
  rw [step_transaction rfl, acceptEvent, acceptCommand_decoded (decode_encode i)]
  exact congrArg _ (afterCommand_withPort i s waiting)

/-- Settles O7: the head of the port is taken, and what `acceptCommand` does with it is one of three cases. -/
theorem stepRunsTheDecodedCommand : Obligations.StepRunsTheDecodedCommand := by
  intro s w rest hp
  have hstep : step s = acceptCommand w { s with port := rest } := step_transaction hp
  rw [hstep]
  exact ⟨rfl, fun i hd => acceptCommand_eq_exec hd _, fun hd hs => acceptCommand_illegal hd hs, fun hs => acceptCommand_halted hs⟩

/-- Settles O8: the placed word leaves the port again and decodes to its command. -/
theorem placedWordRunsNext : Obligations.PlacedWordRunsNext := by
  intro s i
  have hp : (s.withFetchWord 64 (encode i).toNat).port = .command (encode i) :: s.port := by
    rw [State.withFetchWord, issueFirst_port, tableWord_toNat]
  exact (step_transaction hp).trans (acceptCommand_eq_exec (decode_encode i) s)

/-- Settles O11, by induction on the commands. -/
theorem portRunsCommandsInIssueOrder : Obligations.PortRunsCommandsInIssueOrder := by
  intro is
  induction is with
  | nil => intro s rest; rfl
  | cons i is ih =>
    intro s rest
    calc runSteps (i :: is).length { s with port := (i :: is).map (fun j => .command (encode j)) ++ rest }
        = runSteps is.length { afterCommand i s with port := is.map (fun j => .command (encode j)) ++ rest } := by
          rw [List.length_cons, List.map_cons, List.cons_append, runSteps, step_encoded]
      _ = runInstrs is { afterCommand i s with port := rest } := ih (afterCommand i s) rest
      _ = runInstrs (i :: is) { s with port := rest } := by
          rw [← afterCommand_withPort, runInstrs, exec_eq]

end Sys2Proof.Machine

/-! PROOFS. A read changes nothing the block holds (20_memory.md R52). -/

namespace Sys2Proof.Machine

/-- The read port shows nothing of the host's side (10_state.md R33). -/
theorem readPort_withHost (a : ReadAddr) (s : State) (p : List HostEvent) (l : List ReadWord) :
    readPort a { s with port := p, readLog := l } = readPort a s := rfl

/-- Settles O12. -/
theorem readHasNoSideEffect : Obligations.ReadHasNoSideEffect := by
  intro s a rest hp
  have hstep : step s = .next { s with port := rest, readLog := s.readLog ++ [readPort a s] } := step_transaction hp
  refine ⟨hstep, fun t ht a' => ?_, fun ha => readPort_unmapped ha s⟩
  obtain rfl := Host.Outcome.next.inj (hstep.symm.trans ht)
  exact readPort_withHost a' s _ _

end Sys2Proof.Machine

/-! PROOFS. Interleaving cannot be observed (20_memory.md R55): leaving the commands of the other engine out of a safe run leaves a safe
run, and the two states agree on the engine's own elements all along. -/

namespace Sys2Proof.Machine

/-- The RLE engine is the same in two states (10_state.md R20). -/
structure SameRleEngine (u s : State) : Prop where
  llife : u.llife = s.llife
  last : u.last = s.last
  count : u.count = s.count
  outRle : u.outRle = s.outRle

/-- FREQ and the rank engine are the same in two states (10_state.md R20). -/
structure SameRankEngine (u s : State) : Prop where
  freq : u.freq = s.freq
  rlife : u.rlife = s.rlife
  table : u.table = s.table
  wide : u.wide = s.wide
  pending : u.pending = s.pending
  offset : u.offset = s.offset
  outRank : u.outRank = s.outRank

theorem sameRle_feedRun {u s : State} (h : SameRleEngine u s) (b : Byte) :
    SameRleEngine (feedRun b u) (feedRun b s) := by
  obtain ⟨hllife, hlast, hcount, houtRle⟩ := h
  rw [feedRun_eq, feedRun_eq, hlast, hcount, houtRle]
  split_ifs <;> exact ⟨hllife, rfl, rfl, rfl⟩

/-- An RLE command does the same in two states with the same RLE engine. -/
theorem sameRle_effectOf {u s : State} {i : Instr} (h : SameRleEngine u s) (hi : isRleCommand i = true) :
    SameRleEngine (effectOf i u) (effectOf i s) := by
  cases i with
  | rleInit => exact ⟨rfl, rfl, rfl, h.outRle⟩
  | rlePush b => exact sameRle_feedRun h b
  | rleFlush => exact ⟨rfl, h.last, h.count, by simp only [effectOf, h.last, h.count, h.outRle]⟩
  | freqClr | freqWr _ _ | freqInc _ | rankBuild | rankPush _ | rankFlush => cases hi

/-- The checks of an RLE command look at the RLE engine alone. -/
theorem ownFault_eq_of_sameRle {u s : State} {i : Instr} (h : SameRleEngine u s) (hi : isRleCommand i = true) :
    ownFault i u = ownFault i s := by
  cases i with
  | rleInit => rfl
  | rlePush _ | rleFlush => simp only [ownFault, h.llife]
  | freqClr | freqWr _ _ | freqInc _ | rankBuild | rankPush _ | rankFlush => cases hi

/-- Every other command leaves the RLE engine alone. -/
theorem sameRle_effectOf_right {u s : State} {i : Instr} (h : SameRleEngine u s) (hi : isRleCommand i = false) :
    SameRleEngine u (effectOf i s) := by
  rw [effectOf_rank_frame hi]
  exact ⟨h.llife, h.last, h.count, h.outRle⟩

/-- A command outside the RLE engine does the same in two states with the same FREQ and rank engine. -/
theorem sameRank_effectOf {u s : State} {i : Instr} (h : SameRankEngine u s) (hi : isRleCommand i = false) :
    SameRankEngine (effectOf i u) (effectOf i s) := by
  obtain ⟨hfreq, hrlife, htable, hwide, hpending, hoffset, houtRank⟩ := h
  cases i with
  | rleInit | rlePush _ | rleFlush => cases hi
  | freqClr | freqWr _ _ | freqInc _ | rankBuild | rankPush _ | rankFlush =>
    constructor <;> simp only [effectOf, State.freqAt, State.entryAt, hfreq, hrlife, htable, hwide, hpending, hoffset, houtRank]

/-- The checks of a command outside the RLE engine look at FREQ and the rank engine alone. -/
theorem ownFault_eq_of_sameRank {u s : State} {i : Instr} (h : SameRankEngine u s) (hi : isRleCommand i = false) :
    ownFault i u = ownFault i s := by
  cases i with
  | rleInit | rlePush _ | rleFlush => cases hi
  | freqInc b => rw [ownFault, ownFault, State.freqAt, State.freqAt, h.freq]
  | rankPush b => rw [ownFault, ownFault, State.entryAt, State.entryAt, h.rlife, h.table]
  | rankFlush => rw [ownFault, ownFault, h.rlife]
  | freqClr | freqWr _ _ | rankBuild => rfl

/-- Every RLE command leaves FREQ and the rank engine alone. -/
theorem sameRank_effectOf_right {u s : State} {i : Instr} (h : SameRankEngine u s) (hi : isRleCommand i = true) :
    SameRankEngine u (effectOf i s) := by
  rw [effectOf_rle_frame hi]
  exact ⟨h.freq, h.rlife, h.table, h.wide, h.pending, h.offset, h.outRank⟩

/-- Of a safe run the commands that meet `p` are a safe run of their own, and it ends in a state that agrees (`R`) with the end of the whole
run: the commands that meet `p` act alike in agreeing states, and the others keep agreement. -/
theorem safeRun_filter {p : Instr → Bool} {R : State → State → Prop}
    (checks : ∀ {u s i}, R u s → p i = true → ownFault i u = ownFault i s)
    (acts : ∀ {u s i}, R u s → p i = true → R (effectOf i u) (effectOf i s))
    (skips : ∀ {u s i}, R u s → p i = false → R u (effectOf i s))
    {is : List Instr} {u s t : State} (hR : R u s) (hu : u.halted = false) (hs : s.halted = false) (hr : SafeRun is s t) :
    ∃ v, SafeRun (is.filter p) u v ∧ R v t := by
  induction is generalizing u s with
  | nil => exact ⟨u, (safeRun_nil hu).2 rfl, (safeRun_nil hs).1 hr ▸ hR⟩
  | cons i is ih =>
    obtain ⟨hf, hrest⟩ := (safeRun_cons hs).1 hr
    have hs' : (effectOf i s).halted = false := (effectOf_halted i s).trans hs
    cases hi : p i with
    | true =>
      obtain ⟨v, hv, hvt⟩ := ih (acts hR hi) ((effectOf_halted i u).trans hu) hs' hrest
      rw [List.filter_cons_of_pos hi]
      exact ⟨v, (safeRun_cons hu).2 ⟨(checks hR hi).trans hf, hv⟩, hvt⟩
    | false =>
      rw [List.filter_cons_of_neg (by rw [hi]; nofun)]
      exact ih (skips hR hi) hu hs' hrest

/-- Settles O48: both engines by `safeRun_filter`, from the common start. -/
theorem interleavingDoesNotChangeEitherStream : Obligations.InterleavingDoesNotChangeEitherStream := by
  intro is s t hs hr
  constructor
  · obtain ⟨u, hu, h⟩ := safeRun_filter (p := isRleCommand) (R := SameRleEngine) ownFault_eq_of_sameRle sameRle_effectOf
      sameRle_effectOf_right ⟨rfl, rfl, rfl, rfl⟩ hs hs hr
    exact ⟨u, hu, h.llife, h.last, h.count, h.outRle⟩
  · have other {i : Instr} : (!isRleCommand i) = true → isRleCommand i = false := by simp
    have rle {i : Instr} : (!isRleCommand i) = false → isRleCommand i = true := by simp
    obtain ⟨v, hv, h⟩ := safeRun_filter (p := fun i => !isRleCommand i) (R := SameRankEngine)
      (fun h hi => ownFault_eq_of_sameRank h (other hi)) (fun h hi => sameRank_effectOf h (other hi))
      (fun h hi => sameRank_effectOf_right h (rle hi)) ⟨rfl, rfl, rfl, rfl, rfl, rfl, rfl⟩ hs hs hr
    exact ⟨v, hv, h.freq, h.rlife, h.table, h.wide, h.pending, h.offset, h.outRank⟩

end Sys2Proof.Machine

/-! PROOFS. The decoder and the encoder are inverse to each other (30_encoding.md R72, R73, R75). -/

namespace Sys2Proof

theorem CmdFields.ofWord_injective {w x : CmdWord} (h : CmdFields.ofWord w = CmdFields.ofWord x) : w = x := by
  rw [← CmdFields.toWord_ofWord w, h, CmdFields.toWord_ofWord]

theorem encode_eq_iff {i : Instr} {w : CmdWord} : encode i = w ↔ CmdFields.ofWord w = encodeFields i :=
  ⟨fun h => h ▸ ofWord_encode i, fun h => CmdFields.ofWord_injective ((ofWord_encode i).trans h.symm)⟩

/-- Each arm of R75 takes the fields of the command it answers, and no others. -/
theorem encodeFields_of_decodeFields {f : CmdFields} {i : Instr} (h : decodeFields f = some i) : f = encodeFields i := by
  obtain ⟨op, rsv, v, b⟩ := f
  have hop {n : Nat} (hn : op.toNat = n) : op = BitVec.ofNat 8 n := by rw [← hn, BitVec.ofNat_toNat, BitVec.setWidth_eq]
  simp only [decodeFields] at h
  split at h
  · cases h
  · have hrsv : rsv = 0 := not_not.1 ‹_›
    split at h <;> rename_i hn
    -- FREQ_WR, which uses both operands
    case h_2 => cases h; rw [hop hn, hrsv]; rfl
    -- no assigned OP
    case h_10 => cases h
    -- the arms that demand an unused operand to be 0
    all_goals
      split at h
      · cases h; simp_all [encodeFields, opcodeOf, vFieldOf, bFieldOf]
      · cases h

/-- A word decodes to a command exactly when it is the command's word (30_encoding.md R73, R75). -/
theorem decode_eq_some_iff {w : CmdWord} {i : Instr} : decode w = some i ↔ encode i = w :=
  ⟨fun h => encode_eq_iff.2 (encodeFields_of_decodeFields h), fun h => h ▸ Machine.decode_encode i⟩

theorem encode_injective {i j : Instr} (h : encode i = encode j) : i = j :=
  Option.some_injective _ (by rw [← Machine.decode_encode i, h, Machine.decode_encode])

/-- Settles O1. -/
theorem decodeEncodeRoundTrip : Obligations.DecodeEncodeRoundTrip := Machine.decode_encode

/-- Settles O2: the fields of the word are those of the command it decodes to. -/
theorem encodeDecodeRoundTrip : Obligations.EncodeDecodeRoundTrip := by
  intro w i h
  have hw : encode i = w := decode_eq_some_iff.1 h
  have hf : CmdFields.ofWord w = encodeFields i := encode_eq_iff.1 hw
  exact ⟨hw, congrArg CmdFields.op hf.symm, congrArg CmdFields.v hf.symm, congrArg CmdFields.b hf.symm⟩

/-- Settles O5. -/
theorem writtenWordsDecode : Obligations.WrittenWordsDecode := by
  unfold Obligations.WrittenWordsDecode
  decide

end Sys2Proof

/-! PROOFS. The illegal words are those of the four conditions of 30_encoding.md R74. -/

namespace Sys2Proof

theorem CmdFields.wellFormed_iff {f : CmdFields} :
    f.wellFormed = true ↔ f.op ∈ assignedOps ∧ f.rsv = 0 ∧ (f.op ≠ 0x02 → f.v = 0) ∧
      (f.op ∈ ([0x01, 0x10, 0x12, 0x20, 0x22] : List Byte) → f.b = 0) := by
  simp only [CmdFields.wellFormed, CmdFields.opAssigned, CmdFields.rsvZero, CmdFields.vUnusedZero, CmdFields.bUnusedZero,
    Bool.and_eq_true, Bool.or_eq_true, Bool.not_eq_true', beq_iff_eq, List.contains_iff_mem, ← Bool.not_eq_true, and_assoc,
    ne_eq, or_iff_not_imp_left, not_not]

/-- Well-formed fields are those of a command: each assigned OP has its command, and what the command does not use is 0. -/
theorem CmdFields.wellFormed_iff_exists_encodeFields {f : CmdFields} : f.wellFormed = true ↔ ∃ i, f = encodeFields i := by
  constructor
  · obtain ⟨op, rsv, v, b⟩ := f
    rw [CmdFields.wellFormed_iff]
    rintro ⟨hop, rfl, hv, hb⟩
    simp only [assignedOps, List.mem_cons, List.not_mem_nil, or_false] at hop
    dsimp only at hv hb
    obtain rfl | rfl | rfl | rfl | rfl | rfl | rfl | rfl | rfl := hop
    · exact ⟨.freqClr, by rw [hv (by decide), hb (by decide)]; rfl⟩
    · exact ⟨.freqWr b v, rfl⟩
    · exact ⟨.freqInc b, by rw [hv (by decide)]; rfl⟩
    · exact ⟨.rankBuild, by rw [hv (by decide), hb (by decide)]; rfl⟩
    · exact ⟨.rankPush b, by rw [hv (by decide)]; rfl⟩
    · exact ⟨.rankFlush, by rw [hv (by decide), hb (by decide)]; rfl⟩
    · exact ⟨.rleInit, by rw [hv (by decide), hb (by decide)]; rfl⟩
    · exact ⟨.rlePush b, by rw [hv (by decide)]; rfl⟩
    · exact ⟨.rleFlush, by rw [hv (by decide), hb (by decide)]; rfl⟩
  · rintro ⟨i, rfl⟩
    cases i <;> rfl

theorem decode_eq_none_iff {w : CmdWord} : decode w = none ↔ (CmdFields.ofWord w).wellFormed = false := by
  rw [← Bool.not_eq_true, CmdFields.wellFormed_iff_exists_encodeFields, not_exists, Option.eq_none_iff_forall_ne_some]
  exact forall_congr' fun i => not_congr (decode_eq_some_iff.trans encode_eq_iff)

/-- Settles O3: a word decodes to no command exactly when its fields are not well formed, and then `acceptCommand` faults. -/
theorem illegalWordsFaultAndDoNothingElse : Obligations.IllegalWordsFaultAndDoNothingElse := by
  refine ⟨fun w => ?_, by decide, fun w s hd hs => Machine.acceptCommand_illegal hd hs⟩
  rw [decode_eq_none_iff, ← Bool.not_eq_true, CmdFields.wellFormed_iff]
  simp only [not_and_or, Classical.not_imp, ne_eq, and_comm]

end Sys2Proof

/-! PROOFS. FREQ_LOAD writes every symbol's count once (30_encoding.md R77). -/

namespace Sys2Proof.Machine

/-- A FREQ file with `FREQ[b] <- counts[b]` done for each symbol of a list. -/
def FreqFile.load (counts : FreqFile) (symbols : List Byte) (f : FreqFile) : FreqFile :=
  symbols.foldl (fun g b => g.write b (counts.at b)) f

theorem FreqFile.load_cons (counts : FreqFile) (b : Byte) (bs : List Byte) (f : FreqFile) :
    FreqFile.load counts (b :: bs) f = FreqFile.load counts bs (f.write b (counts.at b)) := rfl

theorem FreqFile.at_load (counts : FreqFile) (symbols : List Byte) (f : FreqFile) (c : Byte) :
    (FreqFile.load counts symbols f).at c = if c ∈ symbols then counts.at c else f.at c := by
  induction symbols generalizing f with
  | nil => simp [FreqFile.load]
  | cons b bs ih =>
    rw [FreqFile.load_cons, ih, FreqFile.at_write]
    by_cases h : c = b <;> simp [h]

theorem FreqFile.load_allSymbols (counts f : FreqFile) : FreqFile.load counts allSymbols f = counts :=
  FreqFile.ext_at fun c => by rw [FreqFile.at_load, if_pos (mem_allSymbols c)]

/-- FREQ_WR never faults, so one for each symbol of a list loads their counts and leaves the rest (40_freq.md R101). -/
theorem afterAll_freqWr (counts : FreqFile) (symbols : List Byte) {s : State} (hs : s.halted = false) :
    afterAll (symbols.map fun b => .freqWr b (counts.at b)) s = { s with freq := FreqFile.load counts symbols s.freq } := by
  induction symbols generalizing s with
  | nil => rfl
  | cons b bs ih =>
    rw [List.map_cons, afterAll, afterCommand_runs hs rfl, ih ((effectOf_halted _ s).trans hs), FreqFile.load_cons]
    rfl

theorem expandPseudo_freqLoad (counts : FreqFile) :
    expandPseudo (.freqLoad counts) = allSymbols.map fun b => .freqWr b (counts.at b) := by
  rw [expandPseudo, allSymbols, List.map_map]
  refine List.map_congr_left fun n hn => ?_
  have hlt : n < 256 := List.mem_range.1 hn
  simp [FreqFile.at, hlt, Nat.mod_eq_of_lt hlt]

/-- Settles O21: the 256 FREQ_WR name every symbol, so nothing of the old FREQ is left. -/
theorem freqLoadLoadsTheWholeTable : Obligations.FreqLoadLoadsTheWholeTable := by
  intro counts s hs
  rw [runInstrs_eq, expandPseudo_freqLoad, afterAll_freqWr counts _ hs, FreqFile.load_allSymbols]

end Sys2Proof.Machine

/-! PROOFS. A command is its mnemonic with operands; the rows of the opcode map select by mnemonic (30_encoding.md R73). -/

namespace Sys2Proof

/-- The command of a mnemonic with B and V given, each left out where the mnemonic does not use it (30_encoding.md R73). -/
def Mnemonic.withOperands (m : Mnemonic) (b : Byte) (v : Freq) : Instr :=
  match m with
  | .freqClr => .freqClr
  | .freqWr => .freqWr b v
  | .freqInc => .freqInc b
  | .rankBuild => .rankBuild
  | .rankPush => .rankPush b
  | .rankFlush => .rankFlush
  | .rleInit => .rleInit
  | .rlePush => .rlePush b
  | .rleFlush => .rleFlush

theorem Mnemonic.mnemonic_withOperands (m : Mnemonic) (b : Byte) (v : Freq) : (m.withOperands b v).mnemonic = m := by
  cases m <;> rfl

theorem Instr.withOperands_mnemonic (i : Instr) : i.mnemonic.withOperands (bFieldOf i) (vFieldOf i) = i := by
  cases i <;> rfl

/-- Masking is field by field (30_encoding.md R71, R73). -/
theorem and_eq_iff_fields {w m p : CmdWord} : w &&& m = p ↔
    (CmdFields.ofWord w).op &&& (CmdFields.ofWord m).op = (CmdFields.ofWord p).op ∧
    (CmdFields.ofWord w).rsv &&& (CmdFields.ofWord m).rsv = (CmdFields.ofWord p).rsv ∧
    (CmdFields.ofWord w).v &&& (CmdFields.ofWord m).v = (CmdFields.ofWord p).v ∧
    (CmdFields.ofWord w).b &&& (CmdFields.ofWord m).b = (CmdFields.ofWord p).b := by
  have h : w &&& m = p ↔ CmdFields.ofWord (w &&& m) = CmdFields.ofWord p :=
    ⟨congrArg CmdFields.ofWord, CmdFields.ofWord_injective⟩
  rw [h]
  simp only [CmdFields.ofWord, CmdFields.mk.injEq, BitVec.extractLsb'_and]

/-- A row selects a word exactly when the row's mnemonic, with the word's own B and V, has that word: the mask keeps OP, RSV and the
fields that must be 0, and lets the operands through. -/
theorem row_selects_iff {r : OpcodeRow} (hr : r ∈ opcodeTable) {w : CmdWord} :
    w &&& r.mask = r.bits ↔ encode (r.mnemonic.withOperands (CmdFields.ofWord w).b (CmdFields.ofWord w).v) = w := by
  rw [and_eq_iff_fields, encode_eq_iff]
  generalize CmdFields.ofWord w = f
  obtain ⟨op, rsv, v, b⟩ := f
  have keep8 (x : Byte) : x &&& 255#8 = x := BitVec.and_allOnes
  have keep16 (x : BitVec 16) : x &&& 65535#16 = x := BitVec.and_allOnes
  have keep32 (x : Freq) : x &&& 4294967295#32 = x := BitVec.and_allOnes
  simp only [opcodeTable, List.mem_cons, List.not_mem_nil, or_false] at hr
  obtain rfl | rfl | rfl | rfl | rfl | rfl | rfl | rfl | rfl := hr <;>
    simp [CmdFields.ofWord, encodeFields, Mnemonic.withOperands, opcodeOf, vFieldOf, bFieldOf, keep8, keep16, keep32]

theorem exists_row (m : Mnemonic) : ∃ r ∈ opcodeTable, r.mnemonic = m := by
  cases m <;> decide

theorem row_eq_of_mnemonic_eq : ∀ r ∈ opcodeTable, ∀ r' ∈ opcodeTable, r.mnemonic = r'.mnemonic → r = r' := by
  decide

/-- Settles O4: a row selects the words of its mnemonic's command, and a word is of one command only. -/
theorem decoderAgreesWithMatchAndMask : Obligations.DecoderAgreesWithMatchAndMask := by
  refine ⟨fun w m => ⟨?_, ?_⟩, fun w r hr r' hr' hs hs' => ?_⟩
  · rintro ⟨i, hd, rfl⟩
    obtain rfl := decode_eq_some_iff.1 hd
    obtain ⟨r, hr, hm⟩ := exists_row i.mnemonic
    refine ⟨r, hr, hm, (row_selects_iff hr).2 ?_⟩
    rw [hm, ofWord_encode]
    exact congrArg encode i.withOperands_mnemonic
  · rintro ⟨r, hr, rfl, hsel⟩
    exact ⟨_, decode_eq_some_iff.2 ((row_selects_iff hr).1 hsel), Mnemonic.mnemonic_withOperands ..⟩
  · have henc := (row_selects_iff hr).1 (beq_iff_eq.1 hs)
    have henc' := (row_selects_iff hr').1 (beq_iff_eq.1 hs')
    have hm := congrArg Instr.mnemonic (encode_injective (henc.trans henc'.symm))
    rw [Mnemonic.mnemonic_withOperands, Mnemonic.mnemonic_withOperands] at hm
    exact row_eq_of_mnemonic_eq r hr r' hr' hm

end Sys2Proof

/-! PROOFS. A statement assembles exactly when it is well formed, to its mnemonic's command (30_encoding.md R76). -/

namespace Sys2Proof.Machine

/-- A well-formed statement is its mnemonic's command, the first operand for B and the second for V; every other is an error. -/
theorem assembleStmt_eq (a : AsmStmt) :
    assembleStmt a =
      if a.wellFormed then
        some (a.mnemonic.withOperands (BitVec.ofNat 8 (a.operands.getD 0 0)) (BitVec.ofNat 32 (a.operands.getD 1 0)))
      else none := by
  by_cases h : a.wellFormed = true
  · rw [assembleStmt, if_pos h, if_pos h]
    obtain ⟨m, ops⟩ := a
    simp only [AsmStmt.wellFormed, AsmStmt.arityOk, Bool.and_eq_true, beq_iff_eq] at h
    obtain ⟨⟨harity, -⟩, -⟩ := h
    cases m with
    | freqClr | rankBuild | rankFlush | rleInit | rleFlush =>
      obtain rfl := List.length_eq_zero_iff.1 harity
      rfl
    | freqInc | rankPush | rlePush =>
      obtain ⟨b, rfl⟩ := List.length_eq_one_iff.1 harity
      rfl
    | freqWr =>
      obtain ⟨b, v, rfl⟩ := List.length_eq_two.1 harity
      rfl
  · rw [assembleStmt, if_neg h, if_neg h]

theorem assembleStmt_one_operand {m : Mnemonic} (hm : m.arity = 1) (b : Nat) :
    assembleStmt ⟨m, [b]⟩ = if b < 256 then some (m.withOperands (BitVec.ofNat 8 b) 0) else none := by
  rw [assembleStmt_eq]
  simp [AsmStmt.wellFormed, AsmStmt.arityOk, AsmStmt.bInRange, AsmStmt.vInRange, hm]

theorem assembleStmt_freqWr (b v : Nat) :
    assembleStmt ⟨.freqWr, [b, v]⟩ =
      if b < 256 ∧ v < 4294967296 then some (.freqWr (BitVec.ofNat 8 b) (BitVec.ofNat 32 v)) else none := by
  rw [assembleStmt_eq]
  simp [AsmStmt.wellFormed, AsmStmt.arityOk, AsmStmt.bInRange, AsmStmt.vInRange, Mnemonic.arity, Mnemonic.withOperands]

theorem assembleStmt_wrong_arity {m : Mnemonic} {ops : List Nat} (h : ops.length ≠ m.arity) : assembleStmt ⟨m, ops⟩ = none := by
  rw [assembleStmt_eq]
  simp [AsmStmt.wellFormed, AsmStmt.arityOk, h]

theorem assembleStmt_mnemonic {a : AsmStmt} {i : Instr} (h : assembleStmt a = some i) : i.mnemonic = a.mnemonic := by
  rw [assembleStmt_eq, Option.ite_none_right_eq_some] at h
  obtain ⟨-, h⟩ := h
  rw [← Option.some_injective _ h, Mnemonic.mnemonic_withOperands]

/-- Settles O6: every clause is a case of `assembleStmt_eq`. -/
theorem assemblerRejectsOutOfRangeOperands : Obligations.AssemblerRejectsOutOfRangeOperands :=
  ⟨rfl, rfl, rfl, rfl, rfl, assembleStmt_freqWr, assembleStmt_one_operand rfl, assembleStmt_one_operand rfl,
    assembleStmt_one_operand rfl, fun _ _ h => assembleStmt_wrong_arity h, fun _ _ h => assembleStmt_mnemonic h⟩

end Sys2Proof.Machine

/-! PROOFS. What the frequency commands do to the counts (40_freq.md R100, R101, R102). -/

namespace Sys2Proof.Machine

theorem exec_runs {i : Instr} {s : State} (hs : s.halted = false) (hf : ownFault i s = .none) :
    exec i s = .next (effectOf i s) := by
  rw [exec_eq, afterCommand_runs hs hf]

theorem freqAt_freqClr (s : State) (c : Byte) : (effectOf .freqClr s).freqAt c = 0 := FreqFile.at_zero c

theorem freqAt_freqWr (b c : Byte) (v : Freq) (s : State) :
    (effectOf (.freqWr b v) s).freqAt c = if c = b then v else s.freqAt c := FreqFile.at_write ..

theorem freqAt_freqInc (b c : Byte) (s : State) :
    (effectOf (.freqInc b) s).freqAt c = if c = b then s.freqAt b + 1 else s.freqAt c := FreqFile.at_write ..

theorem FreqFile.write_write (f : FreqFile) (b : Byte) (v w : Freq) : (f.write b v).write b w = f.write b w :=
  Vector.set_set ..

theorem ownFault_freqInc_none {b : Byte} {s : State} :
    ownFault (.freqInc b) s = .none ↔ (s.freqAt b).toNat < 2 ^ 32 - 1 := by
  have bound : (s.freqAt b).toNat < 2 ^ 32 := (s.freqAt b).isLt
  rw [ownFault]
  split_ifs with maximal
  · exact iff_of_false nofun (by omega)
  · exact iff_of_true rfl (by omega)

/-- Below the largest count FREQ_INC does not wrap. -/
theorem freqAt_freqInc_toNat {b : Byte} {s : State} (h : (s.freqAt b).toNat < 2 ^ 32 - 1) (c : Byte) :
    ((effectOf (.freqInc b) s).freqAt c).toNat = (s.freqAt c).toNat + if c = b then 1 else 0 := by
  rw [freqAt_freqInc]
  split_ifs with same
  · rw [same, BitVec.toNat_add_of_lt (show (s.freqAt b).toNat + 1 < 2 ^ 32 by omega)]
    rfl
  · rfl

theorem afterCommand_freqInc_overflow {b : Byte} {s : State} (hs : s.halted = false) (h : (s.freqAt b).toNat = 2 ^ 32 - 1) :
    afterCommand (.freqInc b) s = { s with fault := ⟨.freqOverflow, 0x03, b⟩ } := by
  have hf : ownFault (.freqInc b) s = .freqOverflow := if_pos h
  rw [afterCommand_faults hs (by rw [hf]; nofun), hf]
  rfl

/-- Settles O16: FREQ_CLR never faults. -/
theorem freqClrClearsEveryCount : Obligations.FreqClrClearsEveryCount := by
  refine ⟨rfl, fun s hs => ⟨⟨effectOf .freqClr s, exec_runs hs rfl, freqAt_freqClr s, rfl, exec_runs hs rfl⟩, ?_⟩⟩
  have hrun : afterAll [.freqWr 0x61 5, .freqClr] s = effectOf .freqClr (effectOf (.freqWr 0x61 5) s) := by
    rw [afterAll, afterCommand_runs hs rfl]
    exact afterCommand_runs hs rfl
  exact ⟨_, runInstrs_eq _ s, by rw [hrun]; exact (readPort_freq 0x61 _).trans (freqAt_freqClr _ 0x61)⟩

/-- Settles O17: FREQ_WR never faults, and after it the count of its symbol is V. -/
theorem freqWrLoadsOneCount : Obligations.FreqWrLoadsOneCount := by
  refine ⟨rfl, fun b v => ⟨rfl, fun s hs => ⟨effectOf (.freqWr b v) s, exec_runs hs rfl, ?_, fun c hc => ?_, rfl, ?_, ?_⟩⟩⟩
  · rw [freqAt_freqWr, if_pos rfl]
  · rw [freqAt_freqWr, if_neg hc]
  · have again : effectOf (.freqWr b v) (effectOf (.freqWr b v) s) = effectOf (.freqWr b v) s := by
      simp only [effectOf, FreqFile.write_write]
    rw [exec_runs ((effectOf_halted _ s).trans hs) rfl, again]
  · rintro rfl
    have maximal : ((effectOf (.freqWr b 0xFFFFFFFF) s).freqAt b).toNat = 2 ^ 32 - 1 := by
      rw [freqAt_freqWr, if_pos rfl]; rfl
    rw [exec_eq, afterCommand_freqInc_overflow ((effectOf_halted _ s).trans hs) maximal]

end Sys2Proof.Machine

/-! PROOFS. Runs of FREQ_INC add up (40_freq.md R102, R103). -/

namespace Sys2Proof.Machine

/-- A FREQ file with `FREQ[b] <- FREQ[b] + 1` done for each byte of a buffer. -/
def FreqFile.tally (buf : List Byte) (f : FreqFile) : FreqFile :=
  buf.foldl (fun g b => g.write b (g.at b + 1)) f

theorem FreqFile.tally_cons (b : Byte) (bs : List Byte) (f : FreqFile) :
    FreqFile.tally (b :: bs) f = FreqFile.tally bs (f.write b (f.at b + 1)) := rfl

theorem FreqFile.at_tally (buf : List Byte) (f : FreqFile) (c : Byte) :
    (FreqFile.tally buf f).at c = f.at c + BitVec.ofNat 32 (buf.count c) := by
  induction buf generalizing f with
  | nil => simp [FreqFile.tally]
  | cons b bs ih =>
    rw [FreqFile.tally_cons, ih, FreqFile.at_write]
    by_cases h : c = b
    · rw [if_pos h, h, List.count_cons_self, BitVec.add_assoc, BitVec.add_comm 1, BitVec.ofNat_add]
      rfl
    · rw [if_neg h, List.count_cons_of_ne (Ne.symm h)]

theorem FreqFile.at_tally_toNat {buf : List Byte} {f : FreqFile} {c : Byte} (h : (f.at c).toNat + buf.count c < 2 ^ 32) :
    ((FreqFile.tally buf f).at c).toNat = (f.at c).toNat + buf.count c := by
  rw [FreqFile.at_tally, BitVec.toNat_add, BitVec.toNat_ofNat, Nat.add_mod_mod, Nat.mod_eq_of_lt h]

/-- The order of the bytes counted does not matter (40_freq.md R103). -/
theorem FreqFile.tally_perm {buf buf' : List Byte} (h : buf'.Perm buf) (f : FreqFile) :
    FreqFile.tally buf' f = FreqFile.tally buf f :=
  FreqFile.ext_at fun c => by rw [FreqFile.at_tally, FreqFile.at_tally, h.count_eq]

/-- Where no count of a byte of the buffer passes 2^32 - 1, the FREQ_INCs of a buffer count it and do nothing else (40_freq.md R103). -/
theorem afterAll_freqInc {buf : List Byte} {s : State} (hs : s.halted = false)
    (h : ∀ b ∈ buf, (s.freqAt b).toNat + buf.count b < 2 ^ 32) :
    afterAll (buf.map .freqInc) s = { s with freq := FreqFile.tally buf s.freq } := by
  induction buf generalizing s with
  | nil => rfl
  | cons b bs ih =>
    have below : (s.freqAt b).toNat < 2 ^ 32 - 1 := by
      have hb := h b List.mem_cons_self
      rw [List.count_cons_self] at hb
      omega
    have rest (c : Byte) (hc : c ∈ bs) : ((effectOf (.freqInc b) s).freqAt c).toNat + bs.count c < 2 ^ 32 := by
      have hcount := h c (List.mem_cons_of_mem b hc)
      rw [freqAt_freqInc_toNat below]
      by_cases same : c = b
      · rw [same, List.count_cons_self] at hcount
        rw [same, if_pos rfl]
        omega
      · rwa [if_neg same, Nat.add_zero, ← List.count_cons_of_ne (Ne.symm same)]
    rw [List.map_cons, afterAll, afterCommand_runs hs (ownFault_freqInc_none.2 below),
      ih ((effectOf_halted _ s).trans hs) rest, FreqFile.tally_cons]
    rfl

/-- Settles O18: the two sides of the maximum by the two outcomes of FREQ_INC; the rule's example is run. -/
theorem freqIncCountsOrOverflows : Obligations.FreqIncCountsOrOverflows := by
  refine ⟨fun _ => rfl, fun b s hs below => ?_, fun b s hs maximal => ?_, ?_⟩
  · refine ⟨_, exec_runs hs (ownFault_freqInc_none.2 below), ?_, fun c hc => ?_, rfl⟩
    · rw [freqAt_freqInc_toNat below, if_pos rfl]
    · rw [freqAt_freqInc, if_neg hc]
  · rw [exec_eq, afterCommand_freqInc_overflow hs maximal]
  · exact ⟨_, runInstrs_eq _ _, by decide⟩

/-- Up to 2^32 - 1 the count of a symbol goes up with each FREQ_INC of it, without a fault (40_freq.md R102). -/
theorem afterAll_freqInc_replicate {b : Byte} {s : State} {n : Nat} (hs : s.halted = false)
    (h : (s.freqAt b).toNat + n ≤ 2 ^ 32 - 1) :
    (afterAll (List.replicate n (.freqInc b)) s).halted = false ∧
    ((afterAll (List.replicate n (.freqInc b)) s).freqAt b).toNat = (s.freqAt b).toNat + n := by
  have hcount : (List.replicate n b).count b = n := List.count_replicate_self
  have fits : (s.freqAt b).toNat + (List.replicate n b).count b < 2 ^ 32 := by omega
  rw [← List.map_replicate, afterAll_freqInc hs fun c hc => by rwa [List.eq_of_mem_replicate hc]]
  exact ⟨hs, (FreqFile.at_tally_toNat fits).trans (congrArg _ hcount)⟩

/-- Settles O19: past the maximum, the FREQ_INCs are those that reach it, the one that faults, and those that are refused. -/
theorem freqIncRepeatedStopsAtTheMaximum : Obligations.FreqIncRepeatedStopsAtTheMaximum := by
  intro b s n hs
  refine ⟨fun within => ⟨_, runInstrs_eq _ s, afterAll_freqInc_replicate hs within⟩, fun beyond => ⟨_, runInstrs_eq _ s, ?_⟩⟩
  have bound : (s.freqAt b).toNat < 2 ^ 32 := (s.freqAt b).isLt
  obtain ⟨k, hk⟩ : ∃ k, (s.freqAt b).toNat + k = 2 ^ 32 - 1 := ⟨2 ^ 32 - 1 - (s.freqAt b).toNat, by omega⟩
  obtain ⟨m, rfl⟩ : ∃ m, n = k + (m + 1) := ⟨n - k - 1, by omega⟩
  obtain ⟨running, maximal⟩ := afterAll_freqInc_replicate hs hk.le
  rw [hk] at maximal
  rw [List.replicate_add, List.replicate_succ, afterAll_append, afterAll, afterCommand_freqInc_overflow running maximal,
    afterAll_halted rfl]
  exact ⟨rfl, maximal⟩

/-- The counts of all symbols sum to the length of the buffer counted (00_scope.md R9). -/
theorem sum_freqOf_allSymbols (buf : List Byte) : (allSymbols.map (freqOf buf)).sum = buf.length := by
  have hmem (b : Byte) (_ : b ∈ (buf : Multiset Byte)) : b ∈ allSymbols.toFinset := List.mem_toFinset.2 (mem_allSymbols b)
  calc (allSymbols.map (freqOf buf)).sum
      = ∑ b ∈ allSymbols.toFinset, freqOf buf b := (List.sum_toFinset (freqOf buf) nodup_allSymbols).symm
    _ = ∑ b ∈ allSymbols.toFinset, (buf : Multiset Byte).count b :=
      Finset.sum_congr rfl fun b _ => (Multiset.coe_count b buf).symm
    _ = buf.length := Multiset.sum_count_eq_card hmem

/-- Counting from zero gives FreqOf (00_scope.md R9). -/
theorem FreqFile.at_zero_toNat_add_count (buf : List Byte) (b : Byte) :
    (FreqFile.zero.at b).toNat + buf.count b = freqOf buf b := by
  rw [FreqFile.at_zero]
  exact Nat.zero_add _

/-- FREQ_COUNT tallies the buffer from all counts 0 (40_freq.md R103). -/
theorem runInstrs_freqCount {buf : List Byte} {s : State} (hs : s.halted = false) (h : ∀ b, freqOf buf b < 2 ^ 32) :
    runInstrs (expandPseudo (.freqCount buf)) s = .next { s with freq := FreqFile.tally buf FreqFile.zero } := by
  have cleared (b : Byte) (_ : b ∈ buf) : ((effectOf .freqClr s).freqAt b).toNat + buf.count b < 2 ^ 32 :=
    (FreqFile.at_zero_toNat_add_count buf b).trans_lt (h b)
  rw [runInstrs_eq, expandPseudo, afterAll, afterCommand_runs hs rfl, afterAll_freqInc ((effectOf_halted _ s).trans hs) cleared]
  rfl

theorem FreqFile.at_tally_zero_toNat {buf : List Byte} {b : Byte} (h : freqOf buf b < 2 ^ 32) :
    ((FreqFile.tally buf FreqFile.zero).at b).toNat = freqOf buf b := by
  rw [← FreqFile.at_zero_toNat_add_count] at h ⊢
  exact FreqFile.at_tally_toNat h

/-- Settles O20: the counts of a buffer, from zero, are the same in any order. -/
theorem freqCountComputesFreqOf : Obligations.FreqCountComputesFreqOf := by
  intro buf s hs h
  have counts (b : Byte) : ((FreqFile.tally buf FreqFile.zero).at b).toNat = freqOf buf b := FreqFile.at_tally_zero_toNat (h b)
  refine ⟨_, runInstrs_freqCount hs h, counts, ?_, rfl, hs, fun buf' hperm => ?_⟩
  · simp only [State.freqAt, counts]
    exact sum_freqOf_allSymbols buf
  · have h' (b : Byte) : freqOf buf' b < 2 ^ 32 := by
      rw [freqOf, hperm.count_eq]
      exact h b
    rw [runInstrs_freqCount hs h', FreqFile.tally_perm hperm]

end Sys2Proof.Machine

/-! PROOFS. The order in which symbols precede one another, and the sort as that order's list (41_rank_table.md R111). -/

namespace Sys2Proof.Machine

theorem precedes_iff {f : FreqFile} {a b : Byte} :
    precedes f a b = true ↔ f.at b < f.at a ∨ (f.at a = f.at b ∧ a < b) := decide_eq_true_iff

theorem precedes_asymm {f : FreqFile} {a b : Byte} (h : precedes f a b = true) : ¬ precedes f b a = true := by
  rw [precedes_iff] at h ⊢
  bv_omega

theorem precedes_irrefl (f : FreqFile) (a : Byte) : ¬ precedes f a a = true := fun h => precedes_asymm h h

theorem precedes_trans {f : FreqFile} {a b c : Byte} (hab : precedes f a b = true) (hbc : precedes f b c = true) :
    precedes f a c = true := by
  rw [precedes_iff] at hab hbc ⊢
  bv_omega

/-- Inserting a symbol below all those in place keeps the order: it goes before those of equal count (41_rank_table.md R111). -/
theorem pairwise_precedes_orderedInsert {f : FreqFile} {a : Byte} {l : List Byte} (hl : l.Pairwise (precedes f · · = true))
    (ha : ∀ b ∈ l, a < b) : (l.orderedInsert (fun s t => f.at t ≤ f.at s) a).Pairwise (precedes f · · = true) := by
  induction l with
  | nil => exact List.pairwise_singleton _ a
  | cons x l ih =>
    obtain ⟨hx, hl⟩ := List.pairwise_cons.1 hl
    obtain ⟨hax, hal⟩ := List.forall_mem_cons.1 ha
    rw [List.orderedInsert_cons]
    split_ifs with hle
    · have hfirst : precedes f a x = true := precedes_iff.2 (by bv_omega)
      exact List.pairwise_cons.2
        ⟨List.forall_mem_cons.2 ⟨hfirst, fun b hb => precedes_trans hfirst (hx b hb)⟩, List.pairwise_cons.2 ⟨hx, hl⟩⟩
    · have hlater : precedes f x a = true := precedes_iff.2 (by bv_omega)
      refine List.pairwise_cons.2 ⟨fun b hb => ?_, ih hl hal⟩
      obtain rfl | hb := (List.mem_orderedInsert _).1 hb
      · exact hlater
      · exact hx b hb

theorem pairwise_precedes_insertionSort (f : FreqFile) {l : List Byte} (hl : l.Pairwise (· < ·)) :
    (l.insertionSort (fun s t => f.at t ≤ f.at s)).Pairwise (precedes f · · = true) := by
  induction l with
  | nil => exact List.Pairwise.nil
  | cons a l ih =>
    obtain ⟨ha, hl⟩ := List.pairwise_cons.1 hl
    exact pairwise_precedes_orderedInsert (ih hl) fun b hb => ha b ((List.mem_insertionSort _).1 hb)

/-- The sort is stable and descending (41_rank_table.md R111). -/
theorem pairwise_precedes_sortedSymbols (f : FreqFile) : (sortedSymbols f).Pairwise (precedes f · · = true) :=
  pairwise_precedes_insertionSort f pairwise_allSymbols

/-- In a list ordered by an asymmetric relation, as many elements come before a given one as its place says. -/
theorem countP_eq_idxOf {r : Byte → Byte → Bool} (asymm : ∀ {a b}, r a b = true → ¬ r b a = true) {l : List Byte}
    (hl : l.Pairwise (r · · = true)) {b : Byte} (hb : b ∈ l) : l.countP (r · b) = l.idxOf b := by
  induction l with
  | nil => cases hb
  | cons a l ih =>
    obtain ⟨ha, hl⟩ := List.pairwise_cons.1 hl
    by_cases hab : a = b
    · subst hab
      rw [List.idxOf_cons_self, List.countP_eq_zero]
      exact List.forall_mem_cons.2 ⟨fun h => asymm h h, fun c hc => asymm (ha c hc)⟩
    · have hb : b ∈ l := List.mem_of_ne_of_mem (Ne.symm hab) hb
      rw [List.countP_cons_of_pos (p := (r · b)) (ha b hb), List.idxOf_cons_ne l hab, ih hl hb]

/-- The closed form of a rank is the symbol's place in the sorted list (41_rank_table.md R111). -/
theorem rankOf_eq_idxOf (f : FreqFile) (b : Byte) : rankOf f b = (sortedSymbols f).idxOf b := by
  rw [rankOf, ← (sortedSymbols_perm f).countP_eq]
  exact countP_eq_idxOf precedes_asymm (pairwise_precedes_sortedSymbols f) (mem_sortedSymbols f b)

theorem rankOf_lt (f : FreqFile) (b : Byte) : rankOf f b < 256 := rankOf_eq_idxOf f b ▸ idxOf_sortedSymbols_lt f b

theorem rankOf_injective (f : FreqFile) : Function.Injective (rankOf f) := by
  intro b c h
  rw [rankOf_eq_idxOf, rankOf_eq_idxOf] at h
  exact (List.idxOf_inj (mem_sortedSymbols f b)).1 h

theorem sortedSymbols_rankOf (f : FreqFile) (b : Byte) : (sortedSymbols f)[rankOf f b]? = some b := by
  rw [rankOf_eq_idxOf]
  exact List.getElem?_idxOf (mem_sortedSymbols f b)

theorem exists_rankOf_eq (f : FreqFile) {k : Nat} (hk : k < 256) : ∃ b, rankOf f b = k := by
  have hk : k < (sortedSymbols f).length := (length_sortedSymbols f).symm ▸ hk
  exact ⟨(sortedSymbols f)[k], (rankOf_eq_idxOf f _).trans ((nodup_sortedSymbols f).idxOf_getElem k hk)⟩

/-- What precedes the earlier symbol precedes the later one too, so the ranks go up. -/
theorem rankOf_lt_of_precedes {f : FreqFile} {a b : Byte} (h : precedes f a b = true) : rankOf f a < rankOf f b := by
  have hle : rankOf f a ≤ rankOf f b := List.countP_mono_left fun c _ hc => precedes_trans hc h
  refine lt_of_le_of_ne hle fun he => ?_
  obtain rfl := rankOf_injective f he
  exact precedes_irrefl f a h

theorem precedes_of_zero {f : FreqFile} {a b : Byte} (ha : f.at a ≠ 0) (hb : f.at b = 0) : precedes f a b = true :=
  precedes_iff.2 (.inl (by bv_omega))

/-- Settles O23: the sorted list is in the order of `precedes`, so a symbol's place in it is its rank. -/
theorem rankingIsTheStableDescendingSort : Obligations.RankingIsTheStableDescendingSort := by
  intro f
  refine ⟨sortedSymbols_perm f, (pairwise_precedes_sortedSymbols f).imp precedes_iff.1, sortedSymbols_rankOf f, rankOf_lt f,
    fun k hk => ?_, fun a b ha hb => rankOf_lt_of_precedes (precedes_of_zero ha hb)⟩
  obtain ⟨b, rfl⟩ := exists_rankOf_eq f hk
  exact ⟨b, rfl, fun c hc => rankOf_injective f hc⟩

end Sys2Proof.Machine

/-! PROOFS. The table by closed forms of ranks (41_rank_table.md R113). -/

namespace Sys2Proof.Machine

/-- The walk gives every symbol the closed-form entry of its rank (41_rank_table.md R113). -/
theorem rankWalk_at_rankOf (f : FreqFile) (b : Byte) : (rankWalk f).at b = closedEntry (rankOf f b) := by
  rw [rankWalk_at, rankOf_eq_idxOf]

theorem closedCode_lt (k : Nat) : closedCode k < 2 ^ 255 := by
  rw [closedCode]
  split_ifs with h
  · have hle : 2 ^ (k + 1) ≤ 2 ^ 255 := Nat.pow_le_pow_right (by decide) (by omega)
    have hpos : 0 < 2 ^ (k + 1) := Nat.two_pow_pos _
    omega
  · decide

theorem closedLen_pos (k : Nat) : 1 ≤ closedLen k := by
  rw [closedLen]
  split_ifs <;> omega

theorem closedLen_le (k : Nat) : closedLen k ≤ 255 := by
  rw [closedLen]
  split_ifs <;> omega

theorem closedEntry_len_toNat (k : Nat) : (closedEntry k).len.toNat = closedLen k :=
  (BitVec.toNat_ofNat _ _).trans (Nat.mod_eq_of_lt (Nat.lt_succ_of_le (closedLen_le k)))

theorem closedEntry_code_toNat (k : Nat) : (closedEntry k).code.toNat = closedCode k :=
  (BitVec.toNat_ofNat _ _).trans (Nat.mod_eq_of_lt (closedCode_lt k))

theorem rankWalk_len_toNat (f : FreqFile) (b : Byte) : ((rankWalk f).at b).len.toNat = closedLen (rankOf f b) := by
  rw [rankWalk_at_rankOf, closedEntry_len_toNat]

/-- Settles O24: the two lowest ranks are computed from their closed forms. -/
theorem rankWalkHasItsClosedForm : Obligations.RankWalkHasItsClosedForm := by
  intro f
  refine ⟨rankWalk_at_rankOf f, fun k hk => ?_, fun b c hb hc => ?_, fun b => ?_⟩
  · obtain ⟨hcode, hlen⟩ := walkAt_eq_closed hk
    exact ⟨hcode ▸ closedCode_lt k, hcode, hlen⟩
  · rw [rankWalk_at_rankOf, rankWalk_at_rankOf, hb, hc]
    exact ⟨rfl, rfl, by decide⟩
  · rw [rankWalk_len_toNat]
    exact closedLen_pos _

end Sys2Proof.Machine

/-! PROOFS. The code strings and why they form a complete code that parses uniquely (41_rank_table.md R112, R114). -/

namespace Sys2Proof.Machine

/-- The string of rank `k`: `1`^k `0`, and `1`^255 for rank 255 (41_rank_table.md R114). -/
def rankString (k : Nat) : List Bool :=
  if k ≤ 254 then List.replicate k true ++ [false] else List.replicate 255 true

theorem length_rankString (k : Nat) : (rankString k).length = closedLen k := by
  rw [rankString, closedLen]
  split_ifs
  · rw [List.length_append, List.length_replicate, List.length_singleton]
  · exact List.length_replicate

theorem bitsMsb_of_all_set {n v : Nat} (h : ∀ i < n, v.testBit i = true) : bitsMsb n v = List.replicate n true := by
  induction n with
  | zero => rfl
  | succ n ih => rw [bitsMsb, h n n.lt_succ_self, ih fun i hi => h i (Nat.lt_succ_of_lt hi), List.replicate_succ]

theorem bitsMsb_ones (n : Nat) : bitsMsb n (2 ^ n - 1) = List.replicate n true :=
  bitsMsb_of_all_set fun i hi => by rw [Nat.testBit_two_pow_sub_one, decide_eq_true hi]

/-- The last bit of a string is bit 0 of its value, and the bits before it are those of half the value. -/
theorem bitsMsb_succ (n v : Nat) : bitsMsb (n + 1) v = bitsMsb n (v / 2) ++ [v.testBit 0] := by
  induction n with
  | zero => rfl
  | succ n ih => rw [bitsMsb, ih, bitsMsb, Nat.testBit_succ, List.cons_append]

/-- The closed-form entry of a rank stands for the rank's string (41_rank_table.md R112, R114). -/
theorem codeString_closedEntry (k : Nat) : codeString (closedEntry k) = rankString k := by
  rw [codeString, closedEntry_len_toNat, closedEntry_code_toNat, closedLen, closedCode, rankString]
  split_ifs
  · have hhalf : (2 ^ (k + 1) - 2) / 2 = 2 ^ k - 1 := by omega
    have heven : (2 ^ (k + 1) - 2) % 2 = 0 := by omega
    rw [bitsMsb_succ, hhalf, bitsMsb_ones, Nat.testBit_zero, heven]
    rfl
  · exact bitsMsb_ones 255

theorem codeString_rankWalk (f : FreqFile) (b : Byte) : codeString ((rankWalk f).at b) = rankString (rankOf f b) := by
  rw [rankWalk_at_rankOf, codeString_closedEntry]

/-- A rank's string is `1` at the places below the rank and `0` at the place of the rank itself. -/
theorem rankString_getElem? {k i : Nat} (hk : k < 256) (hik : i ≤ k) (hi : i ≤ 254) : (rankString k)[i]? = some (decide (i < k)) := by
  rw [rankString]
  split_ifs with h
  · rcases hik.lt_or_eq with hlt | rfl
    · rw [List.getElem?_append_left (by simpa using hlt)]
      simp [hlt]
    · simp
  · have hlt : i < k := by omega
    have hi : i < 255 := by omega
    rw [List.getElem?_replicate, if_pos hi, decide_eq_true hlt]

/-- Strings of two ranks differ at the place of the lower one, so neither string begins the other (41_rank_table.md R114). -/
theorem rankString_prefix {j k : Nat} (hj : j < 256) (hk : k < 256) (h : rankString j <+: rankString k) : j = k := by
  by_contra hne
  have hj' := rankString_getElem? hj (Nat.min_le_left j k) (by omega)
  have hk' := rankString_getElem? hk (Nat.min_le_right j k) (by omega)
  obtain ⟨rest, hrest⟩ := h
  have hlt : min j k < (rankString j).length := (List.getElem?_eq_some_iff.1 hj').1
  rw [← hrest, List.getElem?_append_left hlt, hj', Option.some_inj, decide_eq_decide] at hk'
  omega

theorem rankString_ne_nil (k : Nat) : rankString k ≠ [] := by
  rw [← List.length_pos_iff, length_rankString]
  exact closedLen_pos k

/-- Nonempty strings none of which begins another parse back uniquely: two equal concatenations start with the same string. -/
theorem flatMap_injective_of_prefix_free {α β : Type} {c : α → List β} (hne : ∀ a, c a ≠ [])
    (hc : ∀ a b, c a <+: c b → a = b) {xs ys : List α} (h : xs.flatMap c = ys.flatMap c) : xs = ys := by
  induction xs generalizing ys with
  | nil =>
    cases ys with
    | nil => rfl
    | cons y ys => exact absurd (List.append_eq_nil_iff.1 h.symm).1 (hne y)
  | cons x xs ih =>
    cases ys with
    | nil => exact absurd (List.append_eq_nil_iff.1 h).1 (hne x)
    | cons y ys =>
      rw [List.flatMap_cons, List.flatMap_cons] at h
      have hxy : x = y := by
        rcases List.prefix_or_prefix_of_prefix (List.prefix_append (c x) _) (h ▸ List.prefix_append (c y) _) with hp | hp
        · exact hc x y hp
        · exact (hc y x hp).symm
      subst hxy
      rw [ih (List.append_cancel_left h)]

/-- The ranks of all symbols are 0..255 (41_rank_table.md R111). -/
theorem map_rankOf_perm (f : FreqFile) : (allSymbols.map (rankOf f)).Perm (List.range 256) := by
  refine (List.perm_ext_iff_of_nodup (nodup_allSymbols.map (rankOf_injective f)) List.nodup_range).2 fun k => ?_
  rw [List.mem_map, List.mem_range]
  refine ⟨fun ⟨b, _, hb⟩ => hb ▸ rankOf_lt f b, fun hk => ?_⟩
  obtain ⟨b, hb⟩ := exists_rankOf_eq f hk
  exact ⟨b, mem_allSymbols b, hb⟩

/-- The Kraft sum of the ranks below `n`, scaled by 2^255, falls short of 2^255 by the weight of one string of length `n`. -/
theorem kraft_partial {n : Nat} (hn : n ≤ 255) :
    ((List.range n).map fun k => 2 ^ (255 - closedLen k)).sum + 2 ^ (255 - n) = 2 ^ 255 := by
  induction n with
  | zero => rfl
  | succ n ih =>
    have hlen : closedLen n = n + 1 := if_pos (by omega)
    have hhalves : 2 ^ (255 - n) = 2 ^ (255 - (n + 1)) + 2 ^ (255 - (n + 1)) := by
      rw [show 255 - n = 255 - (n + 1) + 1 by omega, Nat.pow_succ, Nat.mul_two]
    rw [List.range_succ, List.map_append, List.sum_append, List.map_singleton, List.sum_singleton, hlen, Nat.add_assoc, ← hhalves]
    exact ih (by omega)

/-- Rank 255 adds the weight by which the ranks below fall short (41_rank_table.md R114). -/
theorem kraft_closedLen : ((List.range 256).map fun k => 2 ^ (255 - closedLen k)).sum = 2 ^ 255 := by
  have hlast : ([255].map fun k => 2 ^ (255 - closedLen k)).sum = 2 ^ (255 - 255) := by decide
  rw [List.range_succ (n := 255), List.map_append, List.sum_append, hlast, kraft_partial le_rfl]

theorem kraft_rankWalk (f : FreqFile) : (allSymbols.map fun b => 2 ^ (255 - ((rankWalk f).at b).len.toNat)).sum = 2 ^ 255 := by
  calc (allSymbols.map fun b => 2 ^ (255 - ((rankWalk f).at b).len.toNat)).sum
      = ((allSymbols.map (rankOf f)).map fun k => 2 ^ (255 - closedLen k)).sum := by
        simp only [rankWalk_len_toNat, List.map_map, Function.comp_def]
    _ = ((List.range 256).map fun k => 2 ^ (255 - closedLen k)).sum := ((map_rankOf_perm f).map _).sum_eq
    _ = 2 ^ 255 := kraft_closedLen

theorem closedLen_gt_eight_iff {k : Nat} : 8 < closedLen k ↔ 8 ≤ k := by
  rw [closedLen]
  split_ifs <;> omega

/-- The bit-packer accepts ranks 0..7 (41_rank_table.md R114). -/
theorem rankWalk_tooLong_iff (f : FreqFile) (b : Byte) : ((rankWalk f).at b).tooLong = false ↔ rankOf f b ≤ 7 := by
  rw [TableEntry.tooLong, rankWalk_len_toNat, decide_eq_false_iff_not, Config.maxLen, closedLen_gt_eight_iff, Nat.not_le, Nat.lt_succ_iff]

/-- Settles O25: distinct symbols have distinct ranks, and no rank's string begins another's. -/
theorem codeTableIsACompletePrefixCode : Obligations.CodeTableIsACompletePrefixCode := by
  intro f
  have hstring := codeString_rankWalk f
  have hprefix (b c : Byte) (h : codeString ((rankWalk f).at b) <+: codeString ((rankWalk f).at c)) : b = c := by
    rw [hstring, hstring] at h
    exact rankOf_injective f (rankString_prefix (rankOf_lt f b) (rankOf_lt f c) h)
  have hne (b : Byte) : codeString ((rankWalk f).at b) ≠ [] := hstring b ▸ rankString_ne_nil _
  exact ⟨hstring, fun b c hbc h => hbc (hprefix b c h), kraft_rankWalk f, fun _ _ => flatMap_injective_of_prefix_free hne hprefix,
    rankWalk_tooLong_iff f⟩

end Sys2Proof.Machine

/-! PROOFS. How many symbols are counted, the ranks they take, and WIDE (41_rank_table.md R111, R115). -/

namespace Sys2Proof.Machine

theorem nonzeroCount_eq_length_filter (f : FreqFile) : nonzeroCount f = (allSymbols.filter fun b => f.at b ≠ 0).length := by
  rw [nonzeroCount, List.countP_eq_length_filter]
  exact congrArg List.length (List.filter_congr fun b _ => Bool.eq_iff_iff.2 (bne_iff_ne.trans decide_eq_true_iff.symm))

theorem ne_zero_of_precedes {f : FreqFile} {a b : Byte} (h : precedes f a b = true) (hb : f.at b ≠ 0) : f.at a ≠ 0 := by
  rw [precedes_iff] at h
  bv_omega

/-- The counted symbols are those before a counted one, the symbol itself, and any after it (41_rank_table.md R115). -/
theorem rankOf_lt_nonzeroCount {f : FreqFile} {b : Byte} (hb : f.at b ≠ 0) : rankOf f b < nonzeroCount f := by
  have hsplit := List.countP_eq_countP_filter_add allSymbols (f.at · != 0) (precedes f · b)
  have hbefore : (allSymbols.filter (precedes f · b)).countP (f.at · != 0) = rankOf f b := by
    rw [List.countP_eq_length.2 fun a ha => bne_iff_ne.2 (ne_zero_of_precedes (List.mem_filter.1 ha).2 hb), rankOf,
      List.countP_eq_length_filter]
  have hself : 0 < (allSymbols.filter (!precedes f · b)).countP (f.at · != 0) := by
    refine List.countP_pos_iff.2 ⟨b, List.mem_filter.2 ⟨mem_allSymbols b, ?_⟩, bne_iff_ne.2 hb⟩
    rw [Bool.not_eq_true', Bool.eq_false_iff]
    exact precedes_irrefl f b
  rw [nonzeroCount]
  omega

/-- A symbol that is not counted comes after every counted one (41_rank_table.md R111). -/
theorem nonzeroCount_le_rankOf {f : FreqFile} {b : Byte} (hb : f.at b = 0) : nonzeroCount f ≤ rankOf f b :=
  List.countP_mono_left fun _ _ hc => precedes_of_zero (bne_iff_ne.1 hc) hb

theorem ne_zero_iff_rankOf_lt {f : FreqFile} {b : Byte} : f.at b ≠ 0 ↔ rankOf f b < nonzeroCount f :=
  ⟨rankOf_lt_nonzeroCount, fun h hb => absurd (nonzeroCount_le_rankOf hb) (Nat.not_le.2 h)⟩

/-- Above 8 counted symbols the one of rank 8 has a code longer than 8 bits; up to 8 none has (41_rank_table.md R115). -/
theorem nonzeroCount_gt_eight_iff {f : FreqFile} :
    8 < nonzeroCount f ↔ ∃ b, f.at b ≠ 0 ∧ 8 < closedLen (rankOf f b) := by
  simp only [closedLen_gt_eight_iff, ne_zero_iff_rankOf_lt]
  refine ⟨fun h => ?_, fun ⟨b, hcounted, hlong⟩ => hlong.trans_lt hcounted⟩
  obtain ⟨b, hb⟩ := exists_rankOf_eq f (show 8 < 256 by decide)
  exact ⟨b, hb ▸ h, hb.ge⟩

/-- RANK_BUILD on a block that is not halted never faults (41_rank_table.md R110). -/
theorem exec_rankBuild_eq {s t : State} (hs : s.halted = false) (h : exec .rankBuild s = .next t) : t = effectOf .rankBuild s := by
  rw [exec_runs hs rfl] at h
  exact (Host.Outcome.next.inj h).symm

theorem rankBuild_table (s : State) : (effectOf .rankBuild s).table = rankWalk s.freq := by rw [effectOf]

theorem rankBuild_entryAt (s : State) (b : Byte) : (effectOf .rankBuild s).entryAt b = closedEntry (rankOf s.freq b) := by
  rw [State.entryAt, rankBuild_table, rankWalk_at_rankOf]

theorem rankBuild_wide_iff (s : State) : (effectOf .rankBuild s).wide = true ↔ 8 < nonzeroCount s.freq := decide_eq_true_iff

/-- Settles O26: the counted symbols take the ranks below their number. -/
theorem wideTellsOfALongPresentCode : Obligations.WideTellsOfALongPresentCode := by
  intro s t hs h
  obtain rfl := exec_rankBuild_eq hs h
  refine ⟨rankBuild_wide_iff s, ?_, fun _ => ne_zero_iff_rankOf_lt, effectOf_fault .rankBuild s⟩
  simp only [rankBuild_wide_iff, rankBuild_entryAt, closedEntry_len_toNat]
  exact nonzeroCount_gt_eight_iff

theorem effectOf_table {i : Instr} (hi : i ≠ .rankBuild) (s : State) : (effectOf i s).table = s.table := by
  cases i with
  | rankBuild => exact absurd rfl hi
  | rlePush b => rw [effectOf, feedRun_frame]
  | freqClr | freqWr _ _ | freqInc _ | rankPush _ | rankFlush | rleInit | rleFlush => rfl

/-- Settles O27: TABLE after RANK_BUILD is the walk over FREQ alone. -/
theorem tableIsASnapshotOfFreq : Obligations.TableIsASnapshotOfFreq := by
  refine ⟨fun i s t hi h => ?_, fun s s' t t' hs hs' hfreq h h' => ?_⟩
  · obtain rfl | ⟨-, rfl⟩ | ⟨code, -, rfl⟩ := exec_cases h
    · rfl
    · exact effectOf_table hi s
    · rfl
  · obtain rfl := exec_rankBuild_eq hs h
    obtain rfl := exec_rankBuild_eq hs' h'
    rw [rankBuild_table, rankBuild_table, hfreq]

end Sys2Proof.Machine

/-! PROOFS. The ranks of symbols that are not counted, the worked corpora, and what RANK_BUILD leaves (41_rank_table.md R110, R117). -/

namespace Sys2Proof.Machine

theorem idxOf_allSymbols (b : Byte) : allSymbols.idxOf b = b.toNat := by
  have hb : b.toNat < allSymbols.length := length_allSymbols.symm ▸ b.isLt
  have hget : allSymbols[b.toNat] = b := by simp [allSymbols]
  rw [← nodup_allSymbols.idxOf_getElem b.toNat hb, hget]

/-- As many symbols lie below a symbol as its value says. -/
theorem countP_lt_allSymbols (b : Byte) : allSymbols.countP (fun a => decide (a < b)) = b.toNat := by
  have asymm {a c : Byte} (h : decide (a < c) = true) : ¬ decide (c < a) = true := by
    rw [decide_eq_true_iff] at h ⊢
    bv_omega
  rw [countP_eq_idxOf asymm (pairwise_allSymbols.imp decide_eq_true) (mem_allSymbols b), idxOf_allSymbols]

/-- The rank of a symbol that is not counted: the symbols below it, and the counted symbols that are not below it. -/
theorem rankOf_of_zero {f : FreqFile} {b : Byte} (hb : f.at b = 0) :
    rankOf f b = b.toNat + allSymbols.countP fun a => f.at a != 0 && !decide (a < b) := by
  have hprec (a : Byte) : precedes f a b = true ↔ f.at a ≠ 0 ∨ a < b := by
    rw [precedes_iff]
    bv_omega
  rw [rankOf, List.countP_eq_countP_filter_add allSymbols (precedes f · b) (fun a => decide (a < b)), List.countP_filter,
    List.countP_filter, ← countP_lt_allSymbols b]
  congr 1
  · exact List.countP_congr fun a _ => by simp +contextual [hprec]
  · refine List.countP_congr fun a _ => ?_
    by_cases hab : a < b <;> simp [hprec, hab]

/-- With every counted symbol below it, an uncounted symbol keeps its value as its rank. -/
theorem rankOf_eq_toNat {f : FreqFile} {b : Byte} (hb : f.at b = 0) (h : ∀ a, f.at a ≠ 0 → a < b) : rankOf f b = b.toNat := by
  rw [rankOf_of_zero hb, List.countP_eq_zero.2, Nat.add_zero]
  intro a _ ha
  rw [Bool.and_eq_true, bne_iff_ne, Bool.not_eq_true', decide_eq_false_iff_not] at ha
  exact ha.2 (h a ha.1)

/-- With every counted symbol above it, an uncounted symbol comes after them and the symbols below it. -/
theorem rankOf_eq_toNat_add_nonzeroCount {f : FreqFile} {b : Byte} (hb : f.at b = 0) (h : ∀ a, f.at a ≠ 0 → ¬ a < b) :
    rankOf f b = b.toNat + nonzeroCount f := by
  rw [rankOf_of_zero hb, nonzeroCount]
  congr 1
  refine List.countP_congr fun a _ => ?_
  rw [Bool.and_eq_true, Bool.not_eq_true', decide_eq_false_iff_not, bne_iff_ne]
  exact and_iff_left_of_imp (h a)

/-- Where `p` and `q` are the counted symbols and `p` comes first, they take ranks 0 and 1 (41_rank_table.md R117). -/
theorem rankOf_of_two_counted {f : FreqFile} {p q : Byte} (hpq : precedes f p q = true) (h : ∀ a, f.at a ≠ 0 ↔ a = p ∨ a = q) :
    nonzeroCount f = 2 ∧ rankOf f p = 0 ∧ rankOf f q = 1 := by
  have hne : p ≠ q := fun e => precedes_irrefl f q (e ▸ hpq)
  have hmem (a : Byte) : a ∈ (allSymbols.filter fun b => f.at b ≠ 0) ↔ a ∈ [p, q] := by
    rw [List.mem_filter, decide_eq_true_iff, h, List.mem_pair, and_iff_right (mem_allSymbols a)]
  have hperm : (allSymbols.filter fun b => f.at b ≠ 0).Perm [p, q] :=
    (List.perm_ext_iff_of_nodup (nodup_allSymbols.filter _) (by simpa using hne)).2 hmem
  have hcount : nonzeroCount f = 2 := (nonzeroCount_eq_length_filter f).trans hperm.length_eq
  have hlt : rankOf f p < rankOf f q := rankOf_lt_of_precedes hpq
  have hbound : rankOf f q < nonzeroCount f := rankOf_lt_nonzeroCount ((h q).2 (.inr rfl))
  omega

/-- With no symbol counted every symbol's rank is its value (41_rank_table.md R110). -/
theorem rankOf_of_all_zero {f : FreqFile} (h : ∀ a, f.at a = 0) (b : Byte) : rankOf f b = b.toNat :=
  rankOf_eq_toNat (h b) fun a ha => absurd (h a) ha

/-- The corpus of 'a' and 'b', 100 of each (41_rank_table.md R110, R117). -/
theorem rankOf_of_tie {f : FreqFile} (h : ∀ b, f.at b = if b = 0x61 ∨ b = 0x62 then 100 else 0) :
    (∀ a, f.at a ≠ 0 ↔ a = 0x61 ∨ a = 0x62) ∧ nonzeroCount f = 2 ∧ rankOf f 0x61 = 0 ∧ rankOf f 0x62 = 1 := by
  have hcounted (a : Byte) : f.at a ≠ 0 ↔ a = 0x61 ∨ a = 0x62 := by
    rw [h]
    split_ifs with hab
    · exact iff_of_true (by decide) hab
    · exact iff_of_false (not_not.2 rfl) hab
  have hfirst : precedes f 0x61 0x62 = true := by
    rw [precedes_iff, h, h]
    decide
  exact ⟨hcounted, rankOf_of_two_counted hfirst hcounted⟩

/-- The corpus of three 'b' and one 'a' (41_rank_table.md R117). -/
theorem rankOf_of_three_to_one {f : FreqFile} (h : ∀ b, f.at b = if b = 0x62 then 3 else if b = 0x61 then 1 else 0) :
    rankOf f 0x62 = 0 ∧ rankOf f 0x61 = 1 ∧ rankOf f 0x00 = 2 := by
  have hcounted (a : Byte) : f.at a ≠ 0 ↔ a = 0x62 ∨ a = 0x61 := by
    rw [h]
    split_ifs with hb ha
    · exact iff_of_true (by decide) (.inl hb)
    · exact iff_of_true (by decide) (.inr ha)
    · exact iff_of_false (not_not.2 rfl) (not_or.2 ⟨hb, ha⟩)
  have hfirst : precedes f 0x62 0x61 = true := by
    rw [precedes_iff, h, h]
    decide
  obtain ⟨hcount, hb, ha⟩ := rankOf_of_two_counted hfirst hcounted
  have hzero : rankOf f 0x00 = (0 : Byte).toNat + nonzeroCount f :=
    rankOf_eq_toNat_add_nonzeroCount (by rw [h]; rfl) fun a _ => BitVec.not_lt_zero
  exact ⟨hb, ha, by rw [hzero, hcount]; rfl⟩

/-- Settles O22: RANK_BUILD never faults, and its effect is the walk over FREQ and a fresh encoder. -/
theorem rankBuildCreatesAFreshEncoder : Obligations.RankBuildCreatesAFreshEncoder := by
  refine ⟨rfl, fun s hs => ⟨effectOf .rankBuild s, exec_runs hs rfl, rankBuild_entryAt s, ?_, rfl, rfl, rfl,
    by simp only [effectOf], fun h b => ?_, fun h => ?_⟩⟩
  · rw [rankBuild_wide_iff, nonzeroCount_eq_length_filter]
    rfl
  · rw [rankBuild_entryAt, rankOf_of_all_zero h]
  · obtain ⟨-, hcount, ha, hb⟩ := rankOf_of_tie h
    have hwide : ¬ (effectOf .rankBuild s).wide = true := by rw [rankBuild_wide_iff, hcount]; decide
    rw [rankBuild_entryAt, rankBuild_entryAt, ha, hb]
    exact ⟨rfl, rfl, Bool.eq_false_iff.2 hwide⟩

/-- Settles O28: the entry of a symbol of each corpus is the closed form of its rank. -/
theorem workedCodeTables : Obligations.WorkedCodeTables := by
  intro s t hs h
  obtain rfl := exec_rankBuild_eq hs h
  have hrank (b : Byte) : ((effectOf .rankBuild s).entryAt b).rank.toNat = rankOf s.freq b := by
    rw [rankBuild_entryAt, closedEntry_rank_toNat (rankOf_lt _ b)]
  refine ⟨fun hfreq => ?_, fun hfreq => ?_, fun hfreq => ?_⟩
  · have hentry (b : Byte) : (effectOf .rankBuild s).entryAt b = closedEntry b.toNat := by
      rw [rankBuild_entryAt, rankOf_of_all_zero hfreq]
    refine ⟨fun b => BitVec.eq_of_toNat_eq ?_, hentry 0, hentry 1, hentry 7, hentry 8, hentry 254, hentry 255⟩
    rw [hrank, rankOf_of_all_zero hfreq]
  · obtain ⟨hcounted, hcount, ha, hb⟩ := rankOf_of_tie hfreq
    have hzero {b : Byte} (hb : b ≠ 0x61 ∧ b ≠ 0x62) : s.freq.at b = 0 := by
      rwa [← not_or, ← hcounted, not_not] at hb
    refine ⟨BitVec.eq_of_toNat_eq ?_, BitVec.eq_of_toNat_eq ?_, fun b hle => ?_, fun b hge => BitVec.eq_of_toNat_eq ?_⟩
    · rw [hrank, ha]; rfl
    · rw [hrank, hb]; rfl
    · rw [hrank, rankOf_eq_toNat_add_nonzeroCount (hzero (by bv_omega)) fun a hc => ?_, hcount]
      obtain rfl | rfl := (hcounted a).1 hc <;> bv_omega
    · rw [hrank, rankOf_eq_toNat (hzero (by bv_omega)) fun a hc => ?_]
      obtain rfl | rfl := (hcounted a).1 hc <;> bv_omega
  · obtain ⟨hb, ha, hzero⟩ := rankOf_of_three_to_one hfreq
    rw [rankBuild_entryAt, rankBuild_entryAt, rankBuild_entryAt, hb, ha, hzero]
    exact ⟨rfl, rfl, rfl⟩

end Sys2Proof.Machine

/-! PROOFS. Bit strings written most significant bit first (00_scope.md R7): their length, where one splits, and which bits count. -/

namespace Sys2Proof.Machine

theorem length_bitsMsb (n v : Nat) : (bitsMsb n v).length = n := by
  induction n with
  | zero => rfl
  | succ n ih => rw [bitsMsb, List.length_cons, ih]

/-- The last `n` bits of a string are the low bits of its value, and the bits before them those of the rest. -/
theorem bitsMsb_add (m n v : Nat) : bitsMsb (m + n) v = bitsMsb m (v / 2 ^ n) ++ bitsMsb n v := by
  induction m with
  | zero => rw [Nat.zero_add]; rfl
  | succ m ih => rw [Nat.add_right_comm, bitsMsb, ih, bitsMsb, Nat.testBit_div_two_pow, List.cons_append]

theorem bitsMsb_congr {n v w : Nat} (h : ∀ i < n, v.testBit i = w.testBit i) : bitsMsb n v = bitsMsb n w := by
  induction n with
  | zero => rfl
  | succ n ih => rw [bitsMsb, bitsMsb, h n n.lt_succ_self, ih fun i hi => h i (Nat.lt_succ_of_lt hi)]

theorem bitsMsb_mod (n v : Nat) : bitsMsb n (v % 2 ^ n) = bitsMsb n v :=
  bitsMsb_congr fun i hi => by rw [Nat.testBit_mod_two_pow, decide_eq_true hi, Bool.true_and]

theorem bitsMsb_zero (n : Nat) : bitsMsb n 0 = List.replicate n false := by
  induction n with
  | zero => rfl
  | succ n ih => rw [bitsMsb, ih, Nat.zero_testBit, List.replicate_succ]

theorem take_bitsMsb {o n : Nat} (h : o ≤ n) (v : Nat) : (bitsMsb n v).take o = bitsMsb o (v / 2 ^ (n - o)) := by
  obtain ⟨k, rfl⟩ := Nat.exists_eq_add_of_le h
  rw [bitsMsb_add, List.take_left' (length_bitsMsb o _), Nat.add_sub_cancel_left]

/-- Bits put below the first `o` bits of a value whose other bits are 0 follow those first bits. -/
theorem bitsMsb_or {n o p c : Nat} (ho : o ≤ n) (hp : p % 2 ^ (n - o) = 0) (hc : c < 2 ^ (n - o)) :
    bitsMsb n (p ||| c) = (bitsMsb n p).take o ++ bitsMsb (n - o) c := by
  have hlow : (p ||| c) % 2 ^ (n - o) = c % 2 ^ (n - o) := by rw [Nat.or_mod_two_pow, hp, Nat.zero_or]
  have hhigh : (p ||| c) / 2 ^ (n - o) = p / 2 ^ (n - o) := by
    rw [Nat.or_div_two_pow, Nat.div_eq_of_lt hc, Nat.or_zero]
  calc bitsMsb n (p ||| c)
      = bitsMsb o ((p ||| c) / 2 ^ (n - o)) ++ bitsMsb (n - o) (p ||| c) := by
        rw [← bitsMsb_add, Nat.add_sub_cancel' ho]
    _ = (bitsMsb n p).take o ++ bitsMsb (n - o) c := by
        rw [hhigh, ← take_bitsMsb ho, ← bitsMsb_mod (n - o), hlow, bitsMsb_mod]

theorem streamBits_append (xs ys : List Byte) : streamBits (xs ++ ys) = streamBits xs ++ streamBits ys :=
  List.flatMap_append

theorem streamBits_singleton (b : Byte) : streamBits [b] = bitsMsb 8 b.toNat := List.flatMap_singleton ..

theorem length_streamBits (bs : List Byte) : (streamBits bs).length = 8 * bs.length := by
  induction bs with
  | nil => rfl
  | cons b bs ih =>
    rw [← List.singleton_append, streamBits_append, streamBits_singleton, List.length_append, length_bitsMsb, ih, List.length_append,
      List.length_singleton, Nat.mul_add]

end Sys2Proof.Machine

/-! PROOFS. Splice (42_rank_pack.md R130): the two cases append the same string, whole or cut at the end of the byte emitted. -/

namespace Sys2Proof.Machine

theorem codeBits_lt {c : CodeValue} {n : Nat} (hn : n ≤ 8) : (codeBits c n).toNat < 2 ^ n := by
  rw [codeBits_toNat hn]
  exact Nat.mod_lt _ (Nat.two_pow_pos n)

/-- The code bits stand for the code's string (41_rank_table.md R112). -/
theorem bitsMsb_codeBits {c : CodeValue} {n : Nat} (hn : n ≤ 8) : bitsMsb n (codeBits c n).toNat = bitsMsb n c.toNat := by
  rw [codeBits_toNat hn, bitsMsb_mod]

theorem shiftLeft_toNat_lt {x : Byte} {n : Nat} (h : x.toNat < 2 ^ n) (k : Nat) : (x <<< k).toNat < 2 ^ (n + k) := by
  rw [BitVec.toNat_shiftLeft, Nat.shiftLeft_eq, Nat.pow_add]
  exact (Nat.mod_le _ _).trans_lt (Nat.mul_lt_mul_of_pos_right h (Nat.two_pow_pos k))

/-- Bits shifted up within a byte come first among the bits that reach that far. -/
theorem take_bitsMsb_shiftLeft (x : Byte) {n k m : Nat} (h : n + k = m) (hm : m ≤ 8) :
    (bitsMsb m (x <<< k).toNat).take n = bitsMsb n x.toNat := by
  rw [take_bitsMsb (by omega), ← h, Nat.add_sub_cancel_left]
  refine bitsMsb_congr fun i hi => ?_
  have hfits : i + k < 8 := by omega
  rw [Nat.testBit_div_two_pow, BitVec.toNat_shiftLeft, Nat.testBit_mod_two_pow, Nat.testBit_shiftLeft, Nat.add_sub_cancel]
  simp [hfits]

/-- A code that does not fill the byte follows the valid bits of PENDING within it. -/
theorem take_bitsMsb_or_shiftLeft {p : Byte} {o n : Nat} {c : CodeValue} (h : o + n < 8) (hp : p.toNat % 2 ^ (8 - o) = 0) :
    (bitsMsb 8 (p ||| (codeBits c n <<< (8 - (o + n)))).toNat).take (o + n) =
      (bitsMsb 8 p.toNat).take o ++ bitsMsb n c.toNat := by
  have hfree : n + (8 - (o + n)) = 8 - o := by omega
  have hfits : (codeBits c n <<< (8 - (o + n))).toNat < 2 ^ (8 - o) := hfree ▸ shiftLeft_toNat_lt (codeBits_lt (by omega)) _
  have hold : ((bitsMsb 8 p.toNat).take o).length = o := by rw [List.length_take, length_bitsMsb]; omega
  rw [BitVec.toNat_or, bitsMsb_or (by omega) hp hfits, List.take_append, hold, Nat.add_sub_cancel_left,
    List.take_of_length_le (hold.le.trans (Nat.le_add_right o n)), take_bitsMsb_shiftLeft _ hfree (Nat.sub_le 8 o),
    bitsMsb_codeBits (by omega)]

/-- A code that fills the byte follows the valid bits of PENDING, cut after the byte emitted. -/
theorem bitsMsb_or_shiftRight {p : Byte} {o n r : Nat} {c : CodeValue} (ho : o ≤ 8) (hn : n ≤ 8) (h : o + n = 8 + r)
    (hp : p.toNat % 2 ^ (8 - o) = 0) :
    bitsMsb 8 (p ||| (codeBits c n >>> r)).toNat ++ (bitsMsb 8 (codeBits c n <<< (8 - r)).toNat).take r =
      (bitsMsb 8 p.toNat).take o ++ bitsMsb n c.toNat := by
  have hcut : 8 - o + r = n := by omega
  have hshift : (codeBits c n >>> r).toNat = (codeBits c n).toNat / 2 ^ r := by
    rw [BitVec.toNat_ushiftRight, Nat.shiftRight_eq_div_pow]
  have hfits : (codeBits c n >>> r).toNat < 2 ^ (8 - o) := by
    rw [hshift, Nat.div_lt_iff_lt_mul (Nat.two_pow_pos r), ← Nat.pow_add, hcut]
    exact codeBits_lt hn
  rw [BitVec.toNat_or, bitsMsb_or ho hp hfits, hshift, take_bitsMsb_shiftLeft _ (by omega) le_rfl, List.append_assoc,
    ← bitsMsb_add, hcut, bitsMsb_codeBits hn]

theorem splice_offset (p : Byte) (o : BitVec 3) (c : CodeValue) (n : Nat) :
    (splice p o c n).2.1.toNat = (o.toNat + n) % 8 := by
  have ho := o.isLt
  rcases Nat.lt_or_ge (o.toNat + n) 8 with h | h
  · rw [splice_short h, BitVec.toNat_ofNat]
  · rw [splice_full h, BitVec.toNat_ofNat]
    omega

/-- Splice emits a byte exactly when the byte fills up (42_rank_pack.md R133). -/
theorem splice_emitted (p : Byte) (o : BitVec 3) (c : CodeValue) (n : Nat) :
    (splice p o c n).2.2.length = if 8 ≤ o.toNat + n then 1 else 0 := by
  split_ifs with h
  · rw [splice_full h, List.length_singleton]
  · rw [splice_short (Nat.not_le.1 h), List.length_nil]

/-- Splice appends the code's string to the valid bits of PENDING (42_rank_pack.md R130). -/
theorem splice_bits {p : Byte} {o : BitVec 3} (c : CodeValue) {n : Nat} (hn : n ≤ 8) (hp : p.toNat % 2 ^ (8 - o.toNat) = 0) :
    streamBits (splice p o c n).2.2 ++ (bitsMsb 8 (splice p o c n).1.toNat).take (splice p o c n).2.1.toNat =
      (bitsMsb 8 p.toNat).take o.toNat ++ bitsMsb n c.toNat := by
  have ho := o.isLt
  rw [splice_offset p o c n]
  rcases Nat.lt_or_ge (o.toNat + n) 8 with h | h
  · rw [splice_short h, Nat.mod_eq_of_lt h]
    exact take_bitsMsb_or_shiftLeft h hp
  · have hr : (o.toNat + n) % 8 = o.toNat + n - 8 := by omega
    rw [splice_full h, hr, streamBits_singleton]
    exact bitsMsb_or_shiftRight (by omega) hn (by omega) hp

/-- Settles O29: the string by `splice_bits`, the low bits by `splice_clean`. -/
theorem spliceAppendsTheCodeString : Obligations.SpliceAppendsTheCodeString := by
  intro p o c n _ hn hp
  refine ⟨splice_bits c hn hp, splice_clean hn hp, splice_offset p o c n, ?_⟩
  have ho := o.isLt
  rw [splice_emitted]
  split_ifs <;> omega

end Sys2Proof.Machine

/-! PROOFS. What RANK_PUSH and RANK_FLUSH do, check by check (42_rank_pack.md R131, R132), and how many bytes each emits (R133). -/

namespace Sys2Proof.Machine

/-- A command whose own check fails records that fault and does nothing else (60_exceptions.md R172, R173). -/
theorem exec_faults {i : Instr} {s : State} {code : FaultCode} (hs : s.halted = false) (hc : code ≠ .none)
    (hf : ownFault i s = code) : exec i s = .next { s with fault := ⟨code, opcodeOf i, bFieldOf i⟩ } := by
  rw [exec_eq, ← raiseFaultOf_ownFault hs hc hf, raiseFaultOf_eq]

/-- A command that leaves the block running has had its effect. -/
theorem exec_running_iff {i : Instr} {s t : State} (hs : s.halted = false) :
    exec i s = .next t ∧ t.halted = false ↔ ownFault i s = .none ∧ t = effectOf i s := by
  have hrun : runInstrs [i] s = exec i s := by rw [runInstrs_eq, exec_eq, afterAll, afterAll]
  rw [← hrun, ← SafeRun, safeRun_cons hs, safeRun_nil ((effectOf_halted i s).trans hs)]

theorem ownFault_rankPush_of_opened {b : Byte} {s : State} (h : s.rlife = .opened) :
    ownFault (.rankPush b) s = if 8 < (s.entryAt b).len.toNat then .unsupportedAlphabet else .none := by
  simp [ownFault, h]

/-- Settles O30: the three checks, and past them the effect of a push. -/
theorem rankPushSplicesOrFaults : Obligations.RankPushSplicesOrFaults := by
  refine ⟨fun _ => rfl, fun b s hs => ⟨fun hnone => ?_, fun hclosed => ?_, fun hopen hlong => ?_, fun hopen _ hlen => ?_,
    fun hopen hcode hlen hpending hoffset => ?_⟩⟩
  · exact exec_faults hs nofun (if_pos hnone)
  · exact exec_faults hs nofun (by rw [ownFault, hclosed]; rfl)
  · exact exec_faults hs nofun ((ownFault_rankPush_of_opened hopen).trans (if_pos hlong))
  · exact exec_runs hs (ownFault_rankPush_none.2 ⟨hopen, hlen⟩)
  · have hsplice : splice s.pending s.offset (s.entryAt b).code (s.entryAt b).len.toNat = (0, 0, [0x0A]) := by
      rw [hpending, hoffset, hcode, hlen]
      decide
    have hshort : (s.entryAt b).len.toNat ≤ 8 := by rw [hlen]; decide
    rw [exec_runs hs (ownFault_rankPush_none.2 ⟨hopen, hshort⟩), effectOf, hsplice]

/-- A flush of an open stream emits PENDING when it holds bits (42_rank_pack.md R132). -/
theorem effectOf_rankFlush (s : State) :
    effectOf .rankFlush s = { s with rlife := .closed, outRank := s.outRank ++ if 0 < s.offset.toNat then [s.pending] else [] } := by
  have hempty : s.offset = 0 ↔ ¬ 0 < s.offset.toNat := by rw [← BitVec.toNat_inj]; simp
  simp only [effectOf, hempty, ite_not]

/-- A flush of a closed stream faults (42_rank_pack.md R132). -/
theorem exec_rankFlush_closed {s : State} (hs : s.halted = false) (h : s.rlife = .closed) :
    exec .rankFlush s = .next { s with fault := ⟨.useAfterFlush, 0x12, 0⟩ } :=
  exec_faults hs nofun (by rw [ownFault, h]; rfl)

/-- Settles O31: the two checks, and past them the effect of a flush, which closes the stream. -/
theorem rankFlushDrainsAndCloses : Obligations.RankFlushDrainsAndCloses := by
  refine ⟨rfl, fun s hs => ⟨fun hnone => ?_, exec_rankFlush_closed hs, fun hopen => ?_, fun hopen hpending hoffset => ?_⟩⟩
  · exact exec_faults hs nofun (if_pos hnone)
  · exact ⟨_, exec_runs hs (ownFault_rankFlush_none.2 hopen), effectOf_rankFlush s,
      exec_rankFlush_closed ((effectOf_halted _ s).trans hs) rfl⟩
  · rw [exec_runs hs (ownFault_rankFlush_none.2 hopen), effectOf_rankFlush, hpending, hoffset]
    rfl

theorem effectOf_rankPush_outRank_length (b : Byte) (s : State) :
    (effectOf (.rankPush b) s).outRank.length =
      s.outRank.length + if 8 ≤ s.offset.toNat + (s.entryAt b).len.toNat then 1 else 0 := by
  rw [effectOf, List.length_append, splice_emitted]

theorem effectOf_rankFlush_outRank_length (s : State) :
    (effectOf .rankFlush s).outRank.length = s.outRank.length + if 0 < s.offset.toNat then 1 else 0 := by
  rw [effectOf_rankFlush, List.length_append, apply_ite List.length, List.length_singleton, List.length_nil]

end Sys2Proof.Machine

/-! PROOFS. The rank stream (42_rank_pack.md R135): the bytes emitted and the valid bits of PENDING always spell the strings pushed since
RANK_BUILD, and the flush pads them to whole bytes. -/

namespace Sys2Proof.Machine

/-- The valid bits of PENDING (10_state.md R27). -/
def State.pendingBits (s : State) : List Bool := (bitsMsb 8 s.pending.toNat).take s.offset.toNat

/-- An open rank stream with the table of `f`: since OUT_RANK was `old`, the bits `pushed` have gone to OUT_RANK and PENDING. -/
structure Streaming (f : FreqFile) (old : List Byte) (pushed : List Bool) (s : State) : Prop where
  running : s.halted = false
  rlife : s.rlife = .opened
  table : s.table = rankWalk f
  clean : s.pendingClean
  bits : ∃ out, s.outRank = old ++ out ∧ streamBits out ++ s.pendingBits = pushed

theorem length_pendingBits (s : State) : s.pendingBits.length = s.offset.toNat := by
  have ho := s.offset.isLt
  rw [State.pendingBits, List.length_take, length_bitsMsb]
  omega

/-- PENDING as a whole byte: its valid bits, then zeros (10_state.md R34, item 2). -/
theorem bitsMsb_pending {s : State} (h : s.pendingClean) :
    bitsMsb 8 s.pending.toNat = s.pendingBits ++ List.replicate (8 - s.offset.toNat) false := by
  have ho := s.offset.isLt
  have hor := bitsMsb_or (n := 8) (Nat.le_of_lt ho) h (Nat.two_pow_pos _)
  rwa [Nat.or_zero, bitsMsb_zero] at hor

theorem streaming_rankBuild {s : State} (hs : s.halted = false) : Streaming s.freq s.outRank [] (effectOf .rankBuild s) where
  running := (effectOf_halted _ s).trans hs
  rlife := rfl
  table := rankBuild_table s
  clean := Nat.zero_mod _
  bits := ⟨[], (List.append_nil _).symm, rfl⟩

theorem Streaming.rankPush {f : FreqFile} {old : List Byte} {pushed : List Bool} {s : State} (h : Streaming f old pushed s) {b : Byte}
    (hb : ((rankWalk f).at b).len.toNat ≤ 8) :
    Streaming f old (pushed ++ codeString ((rankWalk f).at b)) (afterCommand (.rankPush b) s) := by
  obtain ⟨out, hout, hbits⟩ := h.bits
  have hentry : s.entryAt b = (rankWalk f).at b := by rw [State.entryAt, h.table]
  rw [← hentry] at hb ⊢
  rw [afterCommand_runs h.running (ownFault_rankPush_none.2 ⟨h.rlife, hb⟩)]
  refine ⟨(effectOf_halted _ s).trans h.running, h.rlife, h.table, splice_clean hb h.clean, ?_⟩
  refine ⟨out ++ (splice s.pending s.offset (s.entryAt b).code (s.entryAt b).len.toNat).2.2, ?_, ?_⟩
  · rw [← List.append_assoc, ← hout, effectOf]
  · rw [streamBits_append, List.append_assoc, ← hbits, List.append_assoc]
    exact congrArg _ (splice_bits _ hb h.clean)

theorem Streaming.rankPushes {f : FreqFile} {old : List Byte} {pushed : List Bool} {s : State} {syms : List Byte}
    (h : Streaming f old pushed s) (hsyms : ∀ b ∈ syms, ((rankWalk f).at b).len.toNat ≤ 8) :
    Streaming f old (pushed ++ syms.flatMap fun b => codeString ((rankWalk f).at b)) (afterAll (syms.map .rankPush) s) := by
  induction syms generalizing pushed s with
  | nil => rwa [List.flatMap_nil, List.append_nil]
  | cons b bs ih =>
    rw [List.flatMap_cons, ← List.append_assoc]
    exact ih (h.rankPush (hsyms b List.mem_cons_self)) fun c hc => hsyms c (List.mem_cons_of_mem b hc)

/-- RANK_BUILD and pushes of codes that the bit-packer accepts leave an open stream that holds the codes' strings. -/
theorem streaming_build_pushes {s : State} {syms : List Byte} (hs : s.halted = false)
    (hsyms : ∀ b ∈ syms, ((rankWalk s.freq).at b).len.toNat ≤ 8) :
    Streaming s.freq s.outRank (syms.flatMap fun b => codeString ((rankWalk s.freq).at b))
      (afterAll (.rankBuild :: syms.map .rankPush) s) := by
  rw [afterAll, afterCommand_runs hs rfl]
  exact (streaming_rankBuild hs).rankPushes hsyms

/-- OFFSET and the bytes emitted tell the number of bits pushed (42_rank_pack.md R133). -/
theorem Streaming.lengths {f : FreqFile} {old : List Byte} {pushed : List Bool} {s : State} (h : Streaming f old pushed s) :
    s.offset.toNat = pushed.length % 8 ∧ s.outRank.length = old.length + pushed.length / 8 := by
  obtain ⟨out, hout, hbits⟩ := h.bits
  have ho := s.offset.isLt
  have hlen : pushed.length = 8 * out.length + s.offset.toNat := by
    rw [← hbits, List.length_append, length_streamBits, length_pendingBits]
  rw [hout, List.length_append]
  omega

/-- A flush pads the stream to whole bytes with zeros (42_rank_pack.md R135). -/
theorem Streaming.rankFlush {f : FreqFile} {old : List Byte} {pushed : List Bool} {s : State} (h : Streaming f old pushed s) :
    ∃ out, (effectOf .rankFlush s).outRank = old ++ out ∧
      streamBits out = pushed ++ List.replicate ((8 - pushed.length % 8) % 8) false := by
  obtain ⟨out, hout, hbits⟩ := h.bits
  have ho := s.offset.isLt
  rw [effectOf_rankFlush, ← h.lengths.1]
  refine ⟨_, by rw [hout, List.append_assoc], ?_⟩
  rw [streamBits_append, ← hbits, List.append_assoc]
  congr 1
  split_ifs with hpartial
  · rw [streamBits_singleton, bitsMsb_pending h.clean, Nat.mod_eq_of_lt (by omega : 8 - s.offset.toNat < 8)]
  · have hzero : s.offset.toNat = 0 := by omega
    rw [State.pendingBits, hzero]
    rfl

/-- The strings of a list of symbols are as long as their codes' lengths together. -/
theorem length_codeStrings (t : CodeTable) (syms : List Byte) :
    (syms.flatMap fun b => codeString (t.at b)).length = (syms.map fun b => (t.at b).len.toNat).sum := by
  simp only [List.length_flatMap, codeString, length_bitsMsb]

/-- Settles O32: a single command by its effect, a stream by the number of bits it holds. -/
theorem rankEmissionCount : Obligations.RankEmissionCount := by
  refine ⟨fun s t b hs h ht => ?_, fun s t hs h ht => ?_, fun syms s hs hsyms => ?_⟩
  · obtain ⟨-, rfl⟩ := (exec_running_iff hs).1 ⟨h, ht⟩
    exact effectOf_rankPush_outRank_length b s
  · obtain ⟨-, rfl⟩ := (exec_running_iff hs).1 ⟨h, ht⟩
    exact effectOf_rankFlush_outRank_length s
  · have hstream := streaming_build_pushes hs hsyms
    obtain ⟨hoffset, hemitted⟩ := hstream.lengths
    rw [length_codeStrings] at hoffset hemitted
    refine ⟨_, _, safeRun_iff.2 ⟨rfl, hstream.running⟩, exec_runs hstream.running (ownFault_rankFlush_none.2 hstream.rlife),
      (effectOf_halted _ _).trans hstream.running, hoffset, hemitted, ?_⟩
    rw [effectOf_rankFlush_outRank_length, hoffset]
    split_ifs <;> omega

/-- Settles O34: the open stream holds the strings, and the flush pads them. -/
theorem rankStreamIsThePaddedConcatenation : Obligations.RankStreamIsThePaddedConcatenation := by
  intro syms s hs hsyms
  have hstream := streaming_build_pushes hs hsyms
  obtain ⟨out, hout, hbits⟩ := hstream.rankFlush
  refine ⟨_, out, safeRun_iff.2 ⟨?_, (effectOf_halted _ _).trans hstream.running⟩, hout, hbits⟩
  rw [afterAll_append]
  exact (afterCommand_runs hstream.running (ownFault_rankFlush_none.2 hstream.rlife)).symm

end Sys2Proof.Machine

/-! PROOFS. How a sequence is split into chunks cannot be observed (42_rank_pack.md R134). -/

namespace Sys2Proof.Machine

/-- Settles O33: a chunk's commands are its pushes, and pushes of the parts in order are the pushes of the whole. -/
theorem chunkSplitIsInvisible : Obligations.ChunkSplitIsInvisible := by
  intro chunks s
  have hsplit (push : Byte → Instr) : (chunks.flatMap fun c => c.map push) = chunks.flatten.map push := by
    rw [List.map_flatten, List.flatMap_def]
  exact ⟨congrArg (runInstrs · s) (hsplit .rankPush), congrArg (runInstrs · s) (hsplit .rlePush), rfl, rfl⟩

end Sys2Proof.Machine

/-! PROOFS. The pieces of a byte sequence (43_rle.md R153): a first piece comes off the front of the sequence and leaves the pieces of the
rest, and every sequence is built up in that way. -/

namespace Sys2Proof.Machine

theorem maximalRuns_cons {v w : Byte} {y : List Byte} {n : Nat} {rest : List (Nat × Byte)} (h : maximalRuns y = (n, w) :: rest) :
    maximalRuns (v :: y) = if v = w then (n + 1, w) :: rest else (1, v) :: (n, w) :: rest := by
  rw [maximalRuns, h]

/-- The first run is one of the first byte. -/
theorem exists_maximalRuns_cons (v : Byte) (y : List Byte) : ∃ n rest, maximalRuns (v :: y) = (n, v) :: rest := by
  rcases h : maximalRuns y with _ | ⟨⟨n, w⟩, rest⟩
  · exact ⟨1, [], by rw [maximalRuns, h]⟩
  · rw [maximalRuns_cons h]
    split_ifs with hv
    · exact ⟨n + 1, rest, by rw [hv]⟩
    · exact ⟨1, _, rfl⟩

/-- A byte in front of another byte is a run of its own. -/
theorem maximalRuns_cons_new {v : Byte} {y : List Byte} (h : y.head? ≠ some v) : maximalRuns (v :: y) = (1, v) :: maximalRuns y := by
  cases y with
  | nil => rfl
  | cons b y =>
    obtain ⟨n, rest, hruns⟩ := exists_maximalRuns_cons b y
    rw [maximalRuns_cons hruns, if_neg fun e => h (congrArg some e.symm), hruns]

/-- More bytes of the first run's value make that run longer. -/
theorem maximalRuns_replicate_append {v : Byte} {y : List Byte} {m : Nat} {rest : List (Nat × Byte)}
    (h : maximalRuns y = (m, v) :: rest) (n : Nat) : maximalRuns (List.replicate n v ++ y) = (m + n, v) :: rest := by
  induction n with
  | zero => exact h
  | succ n ih => rw [List.replicate_succ, List.cons_append, maximalRuns_cons ih, if_pos rfl, Nat.add_assoc]

theorem runPieces_add_full (m : Nat) (v : Byte) : runPieces (m + 255, v) = (255, v) :: runPieces (m, v) := by
  simp only [runPieces, Nat.add_mod_right, Nat.add_div_right m (show 0 < 255 by decide), List.replicate_succ, List.cons_append]

theorem runPieces_single {n : Nat} (hpos : 1 ≤ n) (hle : n ≤ 255) (v : Byte) : runPieces (n, v) = [(n, v)] := by
  rcases Nat.lt_or_eq_of_le hle with hlt | rfl
  · have hne : n ≠ 0 := by omega
    simp [runPieces, Nat.div_eq_of_lt hlt, Nat.mod_eq_of_lt hlt, hne]
  · simp [runPieces]

/-- `n` bytes `v` in front of `y` are a piece of their own: they fill a piece, or their run ends with them (43_rle.md R153). -/
structure FirstPiece (n : Nat) (v : Byte) (y : List Byte) : Prop where
  pos : 1 ≤ n
  le : n ≤ 255
  cut : n = 255 ∨ y.head? ≠ some v

/-- A first piece comes off the front and leaves the pieces of the rest. -/
theorem FirstPiece.rlePieces_eq {n : Nat} {v : Byte} {y : List Byte} (h : FirstPiece n v y) :
    rlePieces (List.replicate n v ++ y) = (n, v) :: rlePieces y := by
  rw [rlePieces, rlePieces]
  by_cases hy : y.head? = some v
  · obtain rfl : n = 255 := h.cut.resolve_right (not_not_intro hy)
    obtain ⟨y, rfl⟩ := List.head?_eq_some_iff.1 hy
    obtain ⟨m, rest, hruns⟩ := exists_maximalRuns_cons v y
    rw [maximalRuns_replicate_append hruns, hruns, List.flatMap_cons, List.flatMap_cons, runPieces_add_full, List.cons_append]
  · have hruns : maximalRuns (List.replicate n v ++ y) = (n, v) :: maximalRuns y := by
      obtain ⟨n, rfl⟩ := Nat.exists_eq_add_one.2 h.pos
      rw [List.replicate_succ', List.append_assoc, List.singleton_append,
        maximalRuns_replicate_append (maximalRuns_cons_new hy), Nat.add_comm]
    rw [hruns, List.flatMap_cons, runPieces_single h.pos h.le, List.singleton_append]

/-- Every sequence is built up from its end by first pieces, so what each of them keeps holds of it. -/
theorem firstPiece_induction {P : List Byte → Prop} (nil : P [])
    (piece : ∀ n v y, FirstPiece n v y → P y → P (List.replicate n v ++ y)) (x : List Byte) : P x := by
  have grow : ∀ y n v, 1 ≤ n → n ≤ 255 → P (List.replicate n v ++ y) := by
    intro y
    induction y with
    | nil => exact fun n v hpos hle => piece n v [] ⟨hpos, hle, .inr nofun⟩ nil
    | cons b y ih =>
      intro n v hpos hle
      by_cases hmore : b = v ∧ n < 255
      · obtain ⟨rfl, hlt⟩ := hmore
        have hlonger := ih (n + 1) b n.succ_pos hlt
        rwa [List.replicate_succ', List.append_assoc] at hlonger
      · have hcut : n = 255 ∨ b ≠ v := (not_and_or.1 hmore).symm.imp_left fun h => Nat.le_antisymm hle (Nat.not_lt.1 h)
        exact piece n v (b :: y) ⟨hpos, hle, hcut.imp_right fun hne e => hne (Option.some.inj e)⟩ (ih 1 b le_rfl (by decide))
  cases x with
  | nil => exact nil
  | cons b y => exact grow y 1 b le_rfl (by decide)

/-- Settles O39, piece by piece: the pieces of the rest spell the rest, so its first byte is the value of its first piece. -/
theorem rlePiecesSpellTheInput : Obligations.RlePiecesSpellTheInput := by
  intro x
  induction x using firstPiece_induction with
  | nil => exact ⟨rfl, nofun, .nil⟩
  | piece n v y h ih =>
    obtain ⟨hspell, hlengths, hchain⟩ := ih
    rw [h.rlePieces_eq]
    refine ⟨by rw [List.flatMap_cons, hspell], List.forall_mem_cons.2 ⟨⟨h.pos, h.le⟩, hlengths⟩, ?_⟩
    refine List.isChain_cons.2 ⟨fun q hq (hsame : v = q.2) => h.cut.resolve_right (not_not_intro ?_), hchain⟩
    obtain ⟨rest, hrest⟩ := List.head?_eq_some_iff.1 hq
    have hpos : 1 ≤ q.1 := (hlengths q (List.mem_of_mem_head? hq)).1
    obtain ⟨k, hk⟩ := Nat.exists_eq_add_one.2 hpos
    rw [← hspell, hrest, List.flatMap_cons, hk, List.replicate_succ, hsame]
    rfl

end Sys2Proof.Machine

/-! PROOFS. What RLE_PUSH and RLE_FLUSH do, check by check (43_rle.md R151, R152). -/

namespace Sys2Proof.Machine

theorem ownFault_rlePush_none {b : Byte} {s : State} : ownFault (.rlePush b) s = .none ↔ s.llife = .opened := by
  cases hl : s.llife <;> simp [ownFault, hl]

theorem ownFault_rleFlush_none {s : State} : ownFault .rleFlush s = .none ↔ s.llife = .opened := by
  cases hl : s.llife <;> simp [ownFault, hl]

theorem count_add_one_toNat {c : Byte} (h : c < 255) : (c + 1).toNat = c.toNat + 1 := by bv_omega

/-- A push into an open stream is one step of the run-length machine (43_rle.md R151). -/
theorem exec_rlePush_opened {b : Byte} {s : State} (hs : s.halted = false) (h : s.llife = .opened) :
    exec (.rlePush b) s = .next (feedRun b s) :=
  exec_runs hs (ownFault_rlePush_none.2 h)

/-- A flush of a closed stream faults (43_rle.md R152). -/
theorem exec_rleFlush_closed {s : State} (hs : s.halted = false) (h : s.llife = .closed) :
    exec .rleFlush s = .next { s with fault := ⟨.useAfterFlush, 0x22, 0⟩ } :=
  exec_faults hs nofun (if_pos h)

/-- Settles O36: the check, and past it the branches of `feedRun_eq`. -/
theorem rlePushStepsTheRunMachine : Obligations.RlePushStepsTheRunMachine := by
  refine ⟨fun _ => rfl, fun b s hs => ⟨fun hclosed => ?_, fun hopen hidle => ?_, fun hopen hrun hsame hroom => ?_,
    fun hopen hsame hfull => ?_, fun hopen hrun hnew => ?_⟩, _, runInstrs_eq _ _, by decide⟩
  · exact exec_faults hs nofun (if_pos hclosed)
  · rw [exec_rlePush_opened hs hopen, feedRun_eq, if_pos hidle]
  · have hmore : s.count < 255 := hroom
    refine ⟨{ s with count := s.count + 1 }, ?_, count_add_one_toNat hmore, rfl⟩
    rw [exec_rlePush_opened hs hopen, feedRun_eq, if_neg hrun, if_pos hsame, if_pos hmore]
  · rw [exec_rlePush_opened hs hopen, feedRun_eq, hfull, if_neg (by decide), if_pos hsame, if_neg (by decide)]
  · rw [exec_rlePush_opened hs hopen, feedRun_eq, if_neg hrun, if_neg hnew]

end Sys2Proof.Machine

/-! PROOFS. The RLE stream (43_rle.md R153): the pieces emitted and those of the run in progress are always the pieces of the bytes pushed,
and the flush emits the last. -/

namespace Sys2Proof.Machine

/-- The bytes of the run in progress: COUNT times LAST (10_state.md R30, R31). -/
def State.currentRun (s : State) : List Byte := List.replicate s.count.toNat s.last

theorem currentRun_of_idle {s : State} (h : s.count = 0) : s.currentRun = [] := by
  rw [State.currentRun, h]
  rfl

theorem currentRun_ne_nil {s : State} (h : s.count ≠ 0) : s.currentRun ≠ [] := fun hnil =>
  h (BitVec.eq_of_toNat_eq ((List.replicate_eq_nil_iff _).1 hnil))

theorem pieceBytes_append (ps qs : List (Nat × Byte)) : pieceBytes (ps ++ qs) = pieceBytes ps ++ pieceBytes qs :=
  List.flatMap_append

theorem pieceBytes_single (n v : Byte) : pieceBytes [(n.toNat, v)] = [n, v] := by simp [pieceBytes]

theorem length_pieceBytes (ps : List (Nat × Byte)) : (pieceBytes ps).length = 2 * ps.length := by
  simp [pieceBytes, List.length_flatMap, Nat.mul_comm]

theorem rlePieces_ne_nil {x : List Byte} (h : x ≠ []) : rlePieces x ≠ [] := fun hnil =>
  h (by rw [← (rlePiecesSpellTheInput x).1, hnil, List.flatMap_nil])

/-- The run in progress is a piece of its own when it is full or the next byte ends it. -/
theorem rlePieces_currentRun_append {s : State} {y : List Byte} (hrun : s.count ≠ 0)
    (hcut : s.count = 255 ∨ y.head? ≠ some s.last) :
    rlePieces (s.currentRun ++ y) = (s.count.toNat, s.last) :: rlePieces y :=
  FirstPiece.rlePieces_eq ⟨Nat.one_le_iff_ne_zero.2 fun h => hrun (BitVec.eq_of_toNat_eq h), Nat.le_of_lt_succ s.count.isLt,
    hcut.imp_left (congrArg BitVec.toNat)⟩

theorem rlePieces_currentRun (s : State) :
    rlePieces s.currentRun = if s.count = 0 then [] else [(s.count.toNat, s.last)] := by
  split_ifs with hidle
  · rw [currentRun_of_idle hidle]
    rfl
  · have hcut : ([] : List Byte).head? ≠ some s.last := Option.some_ne_none _ |>.symm
    rw [← List.append_nil s.currentRun, rlePieces_currentRun_append hidle (.inr hcut)]
    rfl

/-- A flush emits the piece of the run in progress (43_rle.md R152). -/
theorem effectOf_rleFlush_outRle (s : State) :
    (effectOf .rleFlush s).outRle = s.outRle ++ pieceBytes (rlePieces s.currentRun) := by
  rw [effectOf, rlePieces_currentRun, apply_ite pieceBytes, pieceBytes_single]
  rfl

/-- A byte fed emits the pieces that the bytes to come can no longer change (43_rle.md R151). -/
theorem feedRun_pieces (b : Byte) (s : State) (y : List Byte) :
    ∃ ps, (feedRun b s).outRle = s.outRle ++ pieceBytes ps ∧
      rlePieces (s.currentRun ++ b :: y) = ps ++ rlePieces ((feedRun b s).currentRun ++ y) := by
  rw [feedRun_eq]
  split_ifs with hidle hsame hmore
  · exact ⟨[], (List.append_nil _).symm, by rw [currentRun_of_idle hidle]; rfl⟩
  · refine ⟨[], (List.append_nil _).symm, ?_⟩
    rw [hsame, List.append_cons, State.currentRun, State.currentRun, count_add_one_toNat hmore, List.replicate_succ']
    rfl
  · have hfull : s.count = 255 := by bv_omega
    refine ⟨[(s.count.toNat, s.last)], by rw [pieceBytes_single, hfull], ?_⟩
    rw [rlePieces_currentRun_append hidle (.inl hfull), hsame]
    rfl
  · have hnew : (b :: y).head? ≠ some s.last := fun e => hsame (Option.some.inj e)
    refine ⟨[(s.count.toNat, s.last)], by rw [pieceBytes_single], ?_⟩
    rw [rlePieces_currentRun_append hidle (.inr hnew)]
    rfl

/-- An open RLE stream with the pieces `ps`: since OUT_RLE was `old`, all of them but the last have been emitted, and a flush emits
the last. -/
structure RleStreaming (old : List Byte) (ps : List (Nat × Byte)) (t : State) : Prop where
  running : t.halted = false
  opened : t.llife = .opened
  emitted : t.outRle = old ++ pieceBytes ps.dropLast
  flushed : (effectOf .rleFlush t).outRle = old ++ pieceBytes ps

/-- Pushes into an open stream leave it open, with the pieces of the run that was in progress and the bytes pushed. -/
theorem rleStreaming_pushes (x : List Byte) {s : State} (hs : s.halted = false) (hopen : s.llife = .opened) :
    RleStreaming s.outRle (rlePieces (s.currentRun ++ x)) (afterAll (x.map .rlePush) s) := by
  induction x generalizing s with
  | nil =>
    rw [List.append_nil]
    have hnone : pieceBytes (rlePieces s.currentRun).dropLast = [] := by
      rw [rlePieces_currentRun]
      split_ifs <;> rfl
    exact ⟨hs, hopen, by rw [hnone, List.append_nil]; rfl, effectOf_rleFlush_outRle s⟩
  | cons b x ih =>
    have hnext : afterCommand (.rlePush b) s = feedRun b s := afterCommand_runs hs (ownFault_rlePush_none.2 hopen)
    obtain ⟨ps, hout, hpieces⟩ := feedRun_pieces b s x
    rw [List.map_cons, afterAll, hnext, hpieces]
    have hrest : RleStreaming (feedRun b s).outRle (rlePieces ((feedRun b s).currentRun ++ x)) (afterAll (x.map .rlePush) (feedRun b s)) :=
      ih ((effectOf_halted (.rlePush b) s).trans hs) (by rw [feedRun_frame]; exact hopen)
    obtain ⟨hrunning, hopened, hemitted, hflushed⟩ := hrest
    have hlast : rlePieces ((feedRun b s).currentRun ++ x) ≠ [] :=
      rlePieces_ne_nil (List.append_ne_nil_of_left_ne_nil (currentRun_ne_nil (feedRun_count_ne_zero b s)) x)
    refine ⟨hrunning, hopened, ?_, ?_⟩
    · rw [List.dropLast_append_of_ne_nil hlast, pieceBytes_append, ← List.append_assoc, ← hout, hemitted]
    · rw [pieceBytes_append, ← List.append_assoc, ← hout, hflushed]

theorem rleStreaming_of_idle (x : List Byte) {s : State} (hs : s.halted = false) (hopen : s.llife = .opened) (hidle : s.count = 0) :
    RleStreaming s.outRle (rlePieces x) (afterAll (x.map .rlePush) s) := by
  have hstream := rleStreaming_pushes x hs hopen
  rwa [currentRun_of_idle hidle, List.nil_append] at hstream

theorem RleStreaming.afterCommand_rleFlush {old : List Byte} {ps : List (Nat × Byte)} {t : State} (h : RleStreaming old ps t) :
    afterCommand .rleFlush t = effectOf .rleFlush t :=
  afterCommand_runs h.running (ownFault_rleFlush_none.2 h.opened)

theorem RleStreaming.exec_rleFlush {old : List Byte} {ps : List (Nat × Byte)} {t : State} (h : RleStreaming old ps t) :
    exec .rleFlush t = .next (effectOf .rleFlush t) := by
  rw [exec_eq, h.afterCommand_rleFlush]

/-- Settles O38: an idle engine has no run in progress, and RLE_INIT makes one. -/
theorem rleStreamIsTheRunPieces : Obligations.RleStreamIsTheRunPieces := by
  refine fun x s hs => ⟨fun hopen hidle => ?_, ?_⟩
  · have hstream := rleStreaming_of_idle x hs hopen hidle
    refine ⟨_, _, safeRun_iff.2 ⟨rfl, hstream.running⟩, hstream.exec_rleFlush, (effectOf_halted _ _).trans hstream.running,
      hstream.emitted, hstream.flushed, ?_⟩
    rw [hstream.flushed, List.length_append, length_pieceBytes]
  · have hstream := rleStreaming_of_idle x (s := effectOf .rleInit s) hs rfl rfl
    refine ⟨_, safeRun_iff.2 ⟨?_, (effectOf_halted _ _).trans hstream.running⟩, hstream.flushed⟩
    rw [List.cons_append, afterAll, afterCommand_runs hs rfl, afterAll_append]
    exact hstream.afterCommand_rleFlush.symm

/-- The read port shows a fresh engine as LLIFE OPEN, LAST 0 and COUNT 0 (43_rle.md R150). -/
theorem readPort_rleInit (s : State) : readPort 0x002 (effectOf .rleInit s) = 0x00000001 := by
  rw [readPort_rleStat]
  simp [rleStatWord, effectOf, LLife.toBits]

/-- Settles O35: RLE_INIT has no check of its own, and an open stream with its flush leaves the block running. -/
theorem rleInitCreatesAFreshEncoder : Obligations.RleInitCreatesAFreshEncoder := by
  refine ⟨rfl, fun s hs => ⟨_, exec_runs hs rfl, rfl, exec_runs hs rfl⟩, fun s hs hopen => ⟨_, runInstrs_eq _ s, ?_⟩⟩
  have hstream : RleStreaming _ _ (afterCommand (.rlePush 0x78) s) := rleStreaming_pushes [0x78] hs hopen
  rw [afterAll, afterAll, hstream.afterCommand_rleFlush, afterAll, afterAll,
    afterCommand_runs ((effectOf_halted _ _).trans hstream.running) rfl]
  exact readPort_rleInit _

/-- Settles O37: the check, past it the effect of a flush, which closes the stream, and the last piece of 500 equal bytes. -/
theorem rleFlushEmitsTheLastRun : Obligations.RleFlushEmitsTheLastRun := by
  refine ⟨rfl, fun s hs => ⟨exec_rleFlush_closed hs, fun hopen => ?_⟩, ?_⟩
  · have hrun : s.count = 0 ↔ ¬ 0 < s.count.toNat := by rw [← BitVec.toNat_inj]; simp
    refine ⟨_, exec_runs hs (ownFault_rleFlush_none.2 hopen), ?_, exec_rleFlush_closed ((effectOf_halted _ s).trans hs) rfl⟩
    simp only [effectOf, hrun, ite_not]
  · have hpieces : rlePieces (List.replicate 500 0x41) = [(255, 0x41), (245, 0x41)] := by
      have hruns : maximalRuns (List.replicate 499 0x41 ++ [0x41]) = [(500, 0x41)] := maximalRuns_replicate_append rfl 499
      rw [← List.replicate_succ'] at hruns
      rw [rlePieces, hruns]
      decide
    have hstream := rleStreaming_of_idle (List.replicate 500 0x41) (s := State.reset) rfl rfl rfl
    rw [hpieces, List.map_replicate] at hstream
    refine ⟨_, _, runInstrs_eq _ _, hstream.exec_rleFlush, ?_⟩
    rw [hstream.flushed, hstream.emitted]
    rfl

end Sys2Proof.Machine

/-! PROOFS. A step always answers a next state, and an idle one the same state (60_exceptions.md R172, R174, R182). -/

namespace Sys2Proof.Machine

theorem acceptCommand_answers (w : CmdWord) (s : State) : ∃ t, acceptCommand w s = .next t := by
  cases hs : s.halted with
  | true => exact ⟨s, acceptCommand_halted hs⟩
  | false =>
    cases hd : decode w with
    | none => exact ⟨_, acceptCommand_illegal hd hs⟩
    | some i => exact ⟨_, acceptCommand_decoded hd⟩

theorem acceptEvent_answers (e : HostEvent) (s : State) : ∃ t, acceptEvent e s = .next t := by
  cases e with
  | command w => exact acceptCommand_answers w s
  | read a => exact ⟨performRead a s, rfl⟩
  | reset => exact ⟨takeReset s, rfl⟩

/-- Settles O9: the step is idle or takes a transaction, and every transaction answers a next state. -/
theorem everyStepAnswersANextState : Obligations.EveryStepAnswersANextState := by
  intro s
  cases hp : s.port with
  | nil => exact ⟨s, step_idle hp⟩
  | cons e rest =>
    rw [step_transaction hp]
    exact acceptEvent_answers e _

/-- Settles O10. -/
theorem idleBlockKeepsAllState : Obligations.IdleBlockKeepsAllState := fun _ => step_idle

end Sys2Proof.Machine

/-! PROOFS. The fault a word records, and the refusals after it (60_exceptions.md R172, R173, R175). -/

namespace Sys2Proof.Machine

theorem faultOfWord_illegal {w : CmdWord} (h : decode w = none) (s : State) : faultOfWord w s = .illegalCommand := by
  rw [faultOfWord, h]

theorem faultOfWord_decoded {w : CmdWord} {i : Instr} (h : decode w = some i) (s : State) : faultOfWord w s = ownFault i s := by
  rw [faultOfWord, h]

/-- The OP and B that a command's fault records are the fields of its word (60_exceptions.md R172). -/
theorem ofWord_op_b_of_decode {w : CmdWord} {i : Instr} (h : decode w = some i) :
    (CmdFields.ofWord w).op = opcodeOf i ∧ (CmdFields.ofWord w).b = bFieldOf i := by
  rw [encode_eq_iff.1 (decode_eq_some_iff.1 h)]
  exact ⟨rfl, rfl⟩

/-- The first fault that applies to a word is recorded with the word's OP and B fields, and nothing else changes
(60_exceptions.md R172, R173, R175). -/
theorem acceptCommand_faults {w : CmdWord} {s : State} (hs : s.halted = false) (hf : faultOfWord w s ≠ .none) :
    acceptCommand w s = .next { s with fault := ⟨faultOfWord w s, (CmdFields.ofWord w).op, (CmdFields.ofWord w).b⟩ } := by
  cases hd : decode w with
  | none => rw [acceptCommand_illegal hd hs, faultOfWord_illegal hd]
  | some i =>
    rw [faultOfWord_decoded hd] at hf
    obtain ⟨hop, hb⟩ := ofWord_op_b_of_decode hd
    rw [acceptCommand_decoded hd, afterCommand_faults hs hf, faultOfWord_decoded hd, hop, hb]

/-- A word to which no fault applies is a command's, and has its effect. -/
theorem acceptCommand_runs {w : CmdWord} {s : State} (hs : s.halted = false) (hf : faultOfWord w s = .none) :
    ∃ i, acceptCommand w s = .next (effectOf i s) := by
  cases hd : decode w with
  | none =>
    rw [faultOfWord_illegal hd] at hf
    cases hf
  | some i =>
    rw [faultOfWord_decoded hd] at hf
    exact ⟨i, by rw [acceptCommand_decoded hd, afterCommand_runs hs hf]⟩

theorem halted_withFault {code : FaultCode} (h : code ≠ .none) (op b : Byte) (s : State) :
    ({ s with fault := ⟨code, op, b⟩ } : State).halted = true := bne_iff_ne.2 h

/-- Settles O40: the block refuses, faults or runs, in the order of R175. -/
theorem firstApplicableFaultIsRecordedPrecisely : Obligations.FirstApplicableFaultIsRecordedPrecisely := by
  intro w s
  obtain ⟨t, ht⟩ := acceptCommand_answers w s
  refine ⟨t, ht, fun hs => ?_, fun hs hf => ?_, fun hs hf => ?_⟩
  · exact Host.Outcome.next.inj (ht.symm.trans (acceptCommand_halted hs))
  · obtain rfl := Host.Outcome.next.inj (ht.symm.trans (acceptCommand_faults hs hf))
    exact ⟨rfl, readPort_fault _, fun w' => acceptCommand_halted (halted_withFault hf _ _ s)⟩
  · obtain ⟨i, hi⟩ := acceptCommand_runs hs hf
    obtain rfl := Host.Outcome.next.inj (ht.symm.trans hi)
    exact effectOf_fault i s

end Sys2Proof.Machine

/-! PROOFS. The halted state, which only reset leaves (60_exceptions.md R174, R176). -/

namespace Sys2Proof.Machine

/-- All that a transaction without a reset can do to a halted block is to read a word. -/
theorem acceptEvent_halted {e : HostEvent} {s : State} (hs : s.halted = true) (he : e ≠ .reset) :
    ∃ log, acceptEvent e s = .next { s with readLog := log } := by
  cases e with
  | command w => exact ⟨s.readLog, acceptCommand_halted hs⟩
  | read a => exact ⟨s.readLog ++ [readPort a s], rfl⟩
  | reset => exact absurd rfl he

/-- A step of a halted block without a reset takes the oldest transaction, if any, and changes no architectural element. -/
theorem step_halted {s t : State} (hs : s.halted = true) (hreset : .reset ∉ s.port) (h : step s = .next t) :
    t = { s with port := s.port.tail, readLog := t.readLog } := by
  cases hp : s.port with
  | nil =>
    obtain rfl := Host.Outcome.next.inj ((step_idle hp).symm.trans h)
    rw [List.tail_nil, ← hp]
  | cons e rest =>
    have he : e ≠ .reset := fun heq => hreset (by rw [hp, heq]; exact List.mem_cons_self)
    obtain ⟨log, hlog⟩ := acceptEvent_halted (s := { s with port := rest }) hs he
    obtain rfl := Host.Outcome.next.inj (h.symm.trans ((step_transaction hp).trans hlog))
    rfl

/-- Settles O41: a command word and a command are refused, and of the transactions only a reset does more than read. -/
theorem haltedBlockRefusesUntilReset : Obligations.HaltedBlockRefusesUntilReset := by
  intro s hs
  refine ⟨fun w => acceptCommand_halted hs, fun i => ?_, fun a => rfl, ⟨takeReset s, rfl, rfl⟩, fun e t ht hrunning => ?_⟩
  · rw [exec_eq, afterCommand_halted hs]
  · by_contra he
    obtain ⟨log, hlog⟩ := acceptEvent_halted hs he
    obtain rfl := Host.Outcome.next.inj (ht.symm.trans hlog)
    exact absurd (hs.symm.trans hrunning) (by decide)

/-- Settles O42, by induction on the steps: each leaves the block halted and no reset in the port. -/
theorem firstFaultSurvivesAnyRun : Obligations.FirstFaultSurvivesAnyRun := by
  intro n
  induction n with
  | zero =>
    intro s t hs hreset hrun
    obtain rfl := Host.Outcome.next.inj hrun
    rfl
  | succ n ih =>
    intro s t hs hreset hrun
    obtain ⟨u, hu⟩ := everyStepAnswersANextState s
    rw [runSteps, hu] at hrun
    obtain ⟨log, rfl⟩ : ∃ log, u = { s with port := s.port.tail, readLog := log } := ⟨_, step_halted hs hreset hu⟩
    have htail : .reset ∉ s.port.tail := fun hmem => hreset (List.mem_of_mem_tail hmem)
    simpa only [List.drop_tail] using ih { s with port := s.port.tail, readLog := log } t hs htail hrun

end Sys2Proof.Machine

/-! PROOFS. Reset, and what each unit does after it (70_reset_and_hazards.md R190, R191). -/

namespace Sys2Proof.Machine

/-- The step that takes a reset: no check stands before it, in a halted block either (70_reset_and_hazards.md R190). -/
theorem step_reset {s : State} {rest : List HostEvent} (h : s.port = .reset :: rest) :
    step s = .next (takeReset { s with port := rest }) :=
  step_transaction h

theorem takeReset_halted (s : State) : (takeReset s).halted = false := rfl

theorem takeReset_freqAt (s : State) (b : Byte) : (takeReset s).freqAt b = 0 := FreqFile.at_zero b

theorem takeReset_entryAt (s : State) (b : Byte) : (takeReset s).entryAt b = .absent := CodeTable.at_absent b

/-- RLIFE is still NONE after any safe run from reset without a RANK_BUILD (70_reset_and_hazards.md R191). -/
theorem rlife_none_of_safeRun_takeReset {is : List Instr} {s t : State} (hbuild : .rankBuild ∉ is)
    (hrun : SafeRun is (takeReset s) t) : t.rlife = .none := by
  obtain ⟨hnone, -, -⟩ := lifecyclesTellWhatHasRun is (takeReset s) t (takeReset_halted s) hrun
  exact (hnone (takeReset_rlife s)).2 hbuild

/-- Settles O15: the run-length machine starts open and idle, RLIFE stays NONE until a RANK_BUILD, and a RANK_BUILD finds no symbol
counted. -/
theorem unitsAreReadyAfterReset : Obligations.UnitsAreReadyAfterReset := by
  intro s
  refine ⟨fun b => ?_, fun is t hbuild hrun => ?_, ?_⟩
  · rw [exec_rlePush_opened (takeReset_halted s) (takeReset_llife s), feedRun_eq, if_pos (takeReset_count s)]
  · have hnone : t.rlife = .none := rlife_none_of_safeRun_takeReset hbuild hrun
    obtain ⟨-, hrunning⟩ := hrun
    exact ⟨fun b => exec_faults hrunning nofun (if_pos hnone), exec_faults hrunning nofun (if_pos hnone)⟩
  · obtain ⟨-, hfresh⟩ := rankBuildCreatesAFreshEncoder
    obtain ⟨t, ht, -, -, -, -, -, -, htie, -⟩ := hfresh (takeReset s) (takeReset_halted s)
    exact ⟨t, ht, htie (takeReset_freqAt s)⟩

/-- Settles O14: the step is `takeReset`, element by element. -/
theorem resetSetsEveryElement : Obligations.ResetSetsEveryElement := by
  intro s _ hport
  refine ⟨_, step_reset hport, takeReset_halted _, rfl, rfl, rfl, takeReset_freqAt _, takeReset_rlife _, fun b => ?_,
    takeReset_pending _, takeReset_offset _, takeReset_wide _, takeReset_llife _, takeReset_last _, takeReset_count _,
    takeReset_outRank _, takeReset_outRle _⟩
  rw [takeReset_entryAt]
  exact ⟨rfl, rfl, rfl⟩

/-- Settles O50: the step takes the reset off the port and leaves the rest, and the words read, as they are. -/
theorem resetKeepsTheHostSide : Obligations.ResetKeepsTheHostSide :=
  fun _ _ hport => ⟨_, step_reset hport, takeReset_port _, takeReset_readLog _⟩

end Sys2Proof.Machine
